-- ==== Sys2Proof/Word.lean ====
section
/-! DEFINITION. The units of the engine (00_scope.md R9): a byte is 8 bits, a word is 32 bits, the two
counters are 64 bits. Everything is unsigned. -/

namespace Sys2Proof

/-- A byte, 8 bits. -/
abbrev Byte := BitVec 8

/-- A word of the digest, the working variables and the schedule, 32 bits. -/
abbrev Word := BitVec 32

/-- A 64-bit quantity: TOTBITS. -/
abbrev Word64 := BitVec 64

end Sys2Proof
end

