-- ==== Sys2Proof/Machine/Bits.lean ====
section
/-! DEFINITION. The arithmetic and byte-order primitives of 00_scope.md R10. Every one is total. -/

namespace Sys2Proof.Machine

/-- `add32`: addition modulo 2^32; overflow wraps and is no error (R10). -/
def add32 (x y : Word) : Word := x + y

/-- `not32`: the 32-bit complement (R10). -/
def not32 (x : Word) : Word := ~~~x

/-- `and32` (R10). -/
def and32 (x y : Word) : Word := x &&& y

/-- `or32` (R10). -/
def or32 (x y : Word) : Word := x ||| y

/-- `xor32` (R10). -/
def xor32 (x y : Word) : Word := x ^^^ y

/-- `rotl32`: left rotation by `n` places, `0 <= n < 32`. The case `n = 0` is the identity and is not
computed as a shift by 32 (R10, R82). -/
def rotl32 (x : Word) (n : Nat) : Word :=
  if n = 0 then x else (x <<< n) + (x >>> (32 - n))

/-- `be32`: four bytes to a word, the first the most significant (R10, R32). -/
def be32 (b0 b1 b2 b3 : Byte) : Word := b0 ++ b1 ++ b2 ++ b3

/-- `bytes_be32`: a word to four bytes, the most significant first (R10, R32). -/
def bytesBe32 (x : Word) : List Byte :=
  [x.extractLsb' 24 8, x.extractLsb' 16 8, x.extractLsb' 8 8, x.extractLsb' 0 8]

/-- `bytes_be64`: a 64-bit value to eight bytes, the most significant first (R10, R32). -/
def bytesBe64 (x : Word64) : List Byte :=
  [x.extractLsb' 56 8, x.extractLsb' 48 8, x.extractLsb' 40 8, x.extractLsb' 32 8,
   x.extractLsb' 24 8, x.extractLsb' 16 8, x.extractLsb' 8 8, x.extractLsb' 0 8]

end Sys2Proof.Machine
end

