-- ==== Sys2Proof/Config.lean ====
section
/-! DEFINITION. What an implementation fixes (00_scope.md R8) and the free values of the model. A free
value is an opaque constant with no body: no proof can learn what it is. -/

namespace Sys2Proof

/-- BLKCNT_W, the width of the diagnostic block counter: the spec's default, 64 (R8, R20, D15). -/
abbrev Config.blkcntWidth : Nat := 64

/-- FREE VALUE. LEN after a successful FINAL, which R29 leaves unspecified (U10: any value), within
the legal values 0 to 64 of R17. The argument is the model's counter `freeCtr`, so that two draws are
unrelated. One function for every engine: log entry 20. Log entry 6. -/
opaque Config.lenAfterFinal : Nat → Fin 65

/-- FREE VALUE. What the trace side channel emits during one command when TRACE_EN is on: any
sequence of bytes (R122, U4). The argument is the model's counter `traceCtr`. One
function for every engine: log entry 20. Log entry 7. -/
opaque Config.traceOutput : Nat → List Byte

end Sys2Proof
end

