-- ==== Sys2Proof/Syntax.lean ====
section
/-! DEFINITION. The commands of the engine, one constructor per row of spec/opcode_table.json. -/

namespace Sys2Proof

/-- A host command (30_encoding.md R45 to R49). -/
inductive Instr where
  /-- INIT.SHA0: construct, variant SHA-0 (R47, R64). -/
  | initSha0
  /-- INIT.SHA1: construct, variant SHA-1 (R47, R64). -/
  | initSha1
  /-- ABSORB with a payload, `P = 1` (R48, R70). The field CNT is the payload's length: the
  encoding cannot make the two disagree (R50). -/
  | absorb (data : List Byte)
  /-- ABSORB.NULL, `P = 0` (R48, R71): the field CNT and no payload. -/
  | absorbNull (cnt : BitVec 27)
  /-- FINAL: pad, finish, deliver the digest (R49, R93). -/
  | final
  deriving DecidableEq, Repr

end Sys2Proof
end

