-- ==== Sys2Proof/Machine/State.lean ====
section
/-! DEFINITION. The state of one engine (10_state.md R13), the streams it is driven through, the
reasons a step can stop, and the state after hardware reset (R28). -/

namespace Sys2Proof.Machine

/-- PHASE (R19). The spec fixes no bit encoding of it and asks for an enumeration. -/
inductive Phase where
  /-- After hardware reset, before any INIT (D9). -/
  | idle
  /-- A computation is open. -/
  | accepting
  /-- The digest has been delivered. -/
  | finalized
  deriving DecidableEq, Repr

/-- VARIANT, one bit (R15): 0 is SHA-0, 1 is SHA-1. -/
inductive Variant where
  /-- VARIANT = 0, `r = 0`. -/
  | sha0
  /-- VARIANT = 1, `r = 1`. -/
  | sha1
  deriving DecidableEq, Repr

/-- The status of a command (30_encoding.md R57). -/
inductive Status where
  /-- The command took effect. -/
  | ok
  /-- ABSORB with no payload and a length that is not zero (R110). -/
  | invalidArgument
  /-- ABSORB or FINAL outside phase Accepting (R111). -/
  | invalidState
  /-- An illegal header (R112). -/
  | illegalCommand
  deriving DecidableEq, Repr

/-- The five digest registers H[0] to H[4], 32 bits each (R14). -/
structure Regs where
  /-- H[0] -/
  h0 : Word
  /-- H[1] -/
  h1 : Word
  /-- H[2] -/
  h2 : Word
  /-- H[3] -/
  h3 : Word
  /-- H[4] -/
  h4 : Word
  deriving DecidableEq, Repr

/-- The engine (R13: PHASE, VARIANT, H, TOTBITS, BUF, LEN, BLKCNT), the two byte streams it is driven
through (30_encoding.md R45; log entry 1), and the trace side channel (60_exceptions.md R122; log
entry 7). -/
structure State where
  /-- PHASE (R19). -/
  phase : Phase
  /-- VARIANT (R15). -/
  variant : Variant
  /-- H[0..4] (R14). -/
  h : Regs
  /-- TOTBITS, message bits counted so far (R16). -/
  totbits : Word64
  /-- BUF[0..63] (R18): (index, byte) pairs, indices strictly rising and below 64, no entry equal to
  what an unlisted byte reads as. -/
  buf : List Host.Cell
  /-- LEN, the fill counter and write pointer of BUF (R17, R31). -/
  len : BitVec 7
  /-- BLKCNT, the diagnostic block counter (R20). -/
  blkcnt : BitVec Config.blkcntWidth
  /-- The command stream from the next command on (R45). -/
  cmd : List Byte
  /-- The response stream written so far, oldest byte first (R45, R55). -/
  resp : List Byte
  /-- TRACE_EN (R8, R122): no rule writes it and none but the trace output reads it. -/
  traceEn : Bool
  /-- What the trace side channel has emitted, oldest byte first (R122). -/
  trace : List Byte
  /-- The MODEL's own: how many free values the trace output has taken. Log entry 7. -/
  traceCtr : Nat
  /-- The MODEL's own: how many free values LEN after FINAL has taken. Log entry 6. -/
  freeCtr : Nat
  deriving DecidableEq, Repr

/-- Why the machine stops with a fault. (The spec's own faults, R109, are no stops: each is a next
state with a status byte.) -/
inductive Fault where
  /-- A write to BUF[index] and on that leaves indices 0 to 63. Raised by `bufWrite`. The spec says
  such an index is never formed (20_memory.md R31), and no state that meets `EngineInv` raises it. Safe. -/
  | bufferIndex (index : Nat)
  deriving DecidableEq, Repr

/-- Why a step gives no next state and no fault. -/
inductive Refusal where
  /-- An instruction with no meaning in the model. Raised by no arm of `exec`. Safe. -/
  | notModelled (mnemonic : String)
  /-- The command stream is empty, so there is no command to run: the run is finished
  (70_reset_and_hazards.md R133). Raised by `step`. Safe. -/
  | noCommand
  /-- The command stream ends inside a header or a payload: the engine has no step and waits
  (30_encoding.md R52, D35). Raised by `step`. Safe. -/
  | incompleteCommand
  deriving DecidableEq, Repr

/-- The machine after hardware reset: PHASE is Idle (R28, R130) and both streams are empty. VARIANT,
H, TOTBITS, LEN, BUF and BLKCNT hold no value in the spec; the model names zero for each (log entries
3 and 4), and no rule reads them before INIT writes them. TRACE_EN has the spec's default, off. -/
def State.reset : State where
  phase := .idle
  variant := .sha0
  h := ⟨0, 0, 0, 0, 0⟩
  totbits := 0
  buf := []
  len := 0
  blkcnt := 0
  cmd := []
  resp := []
  traceEn := false
  trace := []
  traceCtr := 0
  freeCtr := 0

end Sys2Proof.Machine
end

