-- ==== Sys2Proof/Machine/Ops.lean ====
section
/-! DEFINITION. The named operations over the staging buffer and the streams, and the one operation a
command ends with: its response (30_encoding.md R55 to R57), a fault's among them (60_exceptions.md
R113). -/

namespace Sys2Proof.Machine

/-- What a byte of BUF that nothing has written reads as. The spec gives it no value (R18, R28); the
model names 0x00. Log entry 4. -/
def Buf.unwritten : Byte := 0

/-- BUF[j]. -/
def Buf.read : List Host.Cell → Nat → Byte
  | [], _ => Buf.unwritten
  | (a, b) :: m, j => if a = j then b else Buf.read m j

/-- The list without an entry for index `j`. -/
def Buf.erase (m : List Host.Cell) (j : Nat) : List Host.Cell := m.filter fun c => c.1 != j

/-- The list with an entry for index `j`, before the first larger index. -/
def Buf.insert : List Host.Cell → Nat → Byte → List Host.Cell
  | [], j, x => [(j, x)]
  | (a, b) :: m, j, x => if j < a then (j, x) :: (a, b) :: m else (a, b) :: Buf.insert m j x

/-- BUF[j] <- x. Writing what an unlisted byte reads as leaves no entry, so that equal buffers are
equal lists. -/
def Buf.write (m : List Host.Cell) (j : Nat) (x : Byte) : List Host.Cell :=
  if x = Buf.unwritten then Buf.erase m j else Buf.insert (Buf.erase m j) j x

/-- BUF[j], BUF[j+1], ... <- the bytes in order (`MemWrite` of 00_scope.md R9). -/
def Buf.writeBytes : List Host.Cell → Nat → List Byte → List Host.Cell
  | m, _, [] => m
  | m, j, x :: xs => Buf.writeBytes (Buf.write m j x) (j + 1) xs

/-- BUF[j] to BUF[j+n-1] in that order (`MemRead` of 00_scope.md R9). -/
def Buf.readBytes (m : List Host.Cell) (j n : Nat) : List Byte :=
  (List.range n).map fun k => Buf.read m (j + k)

/-- The canonical form of BUF: indices strictly rising and in 0 to 63 (R30), no entry equal to what an
unlisted byte reads as. -/
abbrev Buf.wf (m : List Host.Cell) : Prop :=
  m.Pairwise (fun p q => p.1 < q.1) ∧ ∀ p ∈ m, p.1 < 64 ∧ p.2 ≠ Buf.unwritten

/-- `MemWrite(BUF, j, n, bytes)` on the engine. An index outside 0 to 63 does not exist (R30, R31). -/
def bufWrite (j : Nat) (bytes : List Byte) (s : State) : Except Fault State :=
  if j + bytes.length ≤ 64 then .ok { s with buf := Buf.writeBytes s.buf j bytes }
  else .error (.bufferIndex j)

/-- The rotation amount `r` that VARIANT selects (R15, R81). -/
def Variant.rotation : Variant → Nat
  | .sha0 => 0
  | .sha1 => 1

/-- The status byte (30_encoding.md R57). -/
def Status.code : Status → Byte
  | .ok => 0x00
  | .invalidArgument => 0x01
  | .invalidState => 0x02
  | .illegalCommand => 0x03

/-- The trace side channel of one command (R122): with TRACE_EN on, some sequence of bytes goes out;
with it off, nothing does. -/
def emitTrace (s : State) : State :=
  if s.traceEn then
    { s with trace := s.trace ++ Config.traceOutput s.traceCtr, traceCtr := s.traceCtr + 1 }
  else s

/-- `respond(status, out)`: the one response of a command, a status byte and the digest bytes if any
(R55), written after the command has run (R45). -/
def respond (st : Status) (out : List Byte) (s : State) : State :=
  emitTrace { s with resp := s.resp ++ st.code :: out }

/-- `raise`: taking an exception (60_exceptions.md R113). No state is written; the status byte is the
only effect. There is no vector, no saved state, no mode change and no return (R113, R114): the next
command runs next. -/
def raise (st : Status) (s : State) : State := respond st [] s

end Sys2Proof.Machine
end

