-- ==== Sys2Proof/Machine/Compress.lean ====
section
/-! DEFINITION. The compression function (42_compress.md): parse, expander, 80 rounds, add back. -/

namespace Sys2Proof.Machine

/-- Parse (R79): the bytes of a block in groups of four, big-endian. -/
def parse : List Byte → List Word
  | b0 :: b1 :: b2 :: b3 :: bs => be32 b0 b1 b2 b3 :: parse bs
  | _ => []

/-- The next schedule word (R83) from the words before it, latest first: `w[i-3]` stands at 2,
`w[i-8]` at 7, `w[i-14]` at 13 and `w[i-16]` at 15. -/
def expandWord (r : Nat) (back : List Word) : Word :=
  rotl32 (xor32 (xor32 (xor32 (back.getD 2 0) (back.getD 7 0)) (back.getD 13 0)) (back.getD 15 0)) r

/-- `n` more schedule words on top of `back`, latest first (R80, R83). -/
def expandFrom (r : Nat) : Nat → List Word → List Word
  | 0, back => back
  | n + 1, back => expandFrom r n (expandWord r back :: back)

/-- The message schedule `w[0..79]` of the sixteen words of a block (R76, R80). -/
def schedule (r : Nat) (words : List Word) : List Word :=
  (expandFrom r 64 words.reverse).reverse

/-- The function of rounds 0 to 19 (R86). -/
def choice (b c d : Word) : Word := or32 (and32 b c) (and32 (not32 b) d)

/-- The function of rounds 20 to 39 and 60 to 79 (R87). -/
def parity (b c d : Word) : Word := xor32 (xor32 b c) d

/-- The function of rounds 40 to 59 (R88). -/
def majority (b c d : Word) : Word := or32 (or32 (and32 b c) (and32 b d)) (and32 c d)

/-- `f` of round `i` (R85). -/
def roundF (i : Nat) (b c d : Word) : Word :=
  if i < 20 then choice b c d
  else if i < 40 then parity b c d
  else if i < 60 then majority b c d
  else parity b c d

/-- `k` of round `i` (R85). -/
def roundK (i : Nat) : Word :=
  if i < 20 then 0x5A827999
  else if i < 40 then 0x6ED9EBA1
  else if i < 60 then 0x8F1BBCDC
  else 0xCA62C1D6

/-- The working variables of a compression (10_state.md R23). They live inside one `compress` only. -/
structure Working where
  /-- a -/
  a : Word
  /-- b -/
  b : Word
  /-- c -/
  c : Word
  /-- d -/
  d : Word
  /-- e -/
  e : Word
  deriving DecidableEq, Repr

/-- Load (R84). -/
def load (h : Regs) : Working := ⟨h.h0, h.h1, h.h2, h.h3, h.h4⟩

/-- `temp` of round `i` with schedule word `w` (R89). -/
def roundTemp (i : Nat) (w : Word) (v : Working) : Word :=
  add32 (add32 (add32 (add32 (rotl32 v.a 5) (roundF i v.b v.c v.d)) v.e) (roundK i)) w

/-- Round `i` (R89): every right-hand side is the value from the start of the round. -/
def roundStep (i : Nat) (w : Word) (v : Working) : Working :=
  ⟨roundTemp i w v, v.a, rotl32 v.b 30, v.c, v.d⟩

/-- The rounds from `i` on, one for each schedule word, in increasing order (R89). -/
def roundsFrom : Nat → List Word → Working → Working
  | _, [], v => v
  | i, w :: ws, v => roundsFrom (i + 1) ws (roundStep i w v)

/-- Add back (R90): the working variables are added to the registers as they were before. -/
def addBack (h : Regs) (v : Working) : Regs :=
  ⟨add32 h.h0 v.a, add32 h.h1 v.b, add32 h.h2 v.c, add32 h.h3 v.d, add32 h.h4 v.e⟩

/-- Steps 1 to 5 of R76 with rotation amount `r`, on a block of 64 bytes. -/
def compressWith (r : Nat) (h : Regs) (block : List Byte) : Regs :=
  addBack h (roundsFrom 0 (schedule r (parse block)) (load h))

/-- `compress_fn(r, H, block)` (R77): a pure function of the variant, the registers and the 64 bytes of
a block. VARIANT is read once, first, and selects `r` (R76, R81). -/
def compressFn (v : Variant) (h : Regs) (block : List Byte) : Regs :=
  match v with
  | .sha0 => compressWith Variant.sha0.rotation h block
  | .sha1 => compressWith Variant.sha1.rotation h block

/-- `compress()` on the engine (R76): H from the whole of BUF, and one more in BLKCNT (R91). -/
def compress (s : State) : State :=
  { s with h := compressFn s.variant s.h (Buf.readBytes s.buf 0 64), blkcnt := s.blkcnt + 1 }

end Sys2Proof.Machine
end

