-- ==== Sys2Proof/Machine/Flags.lean ====
section
/-! DEFINITION. The derived conditions of 10_state.md R22. None is stored; there is no flag register. -/

namespace Sys2Proof.Machine

/-- `accepting`: PHASE is Accepting. -/
def accepting (s : State) : Bool := decide (s.phase = .accepting)

/-- `full`: LEN is 64. -/
def full (s : State) : Bool := decide (s.len = 64)

/-- `two_block`: LEN exceeds 56 after the 0x80 byte is appended. -/
def twoBlock (s : State) : Bool := decide (56 < s.len.toNat)

end Sys2Proof.Machine
end

