-- ==== Sys2Proof/Machine/Absorb.lean ====
section
/-! DEFINITION. ABSORB and ABSORB.NULL, the block buffer (41_absorb.md). -/

namespace Sys2Proof.Machine

/-- The flush of a full buffer (R69): compress, count 512 bits, empty the buffer. -/
def flush (s : State) : State :=
  { compress s with totbits := s.totbits + 512, len := 0 }

/-- `absorb_byte(x)` (R69): store the byte at BUF[LEN], and flush as soon as the buffer is full. -/
def absorbByte (x : Byte) (s : State) : Except Fault State :=
  match bufWrite s.len.toNat [x] s with
  | .error f => .error f
  | .ok t =>
    if full { t with len := t.len + 1 } then .ok (flush { t with len := t.len + 1 })
    else .ok { t with len := t.len + 1 }

/-- `absorb_byte` on each byte of a payload, in order (R70). -/
def absorbBytes : List Byte → State → Except Fault State
  | [], s => .ok s
  | x :: xs, s =>
    match absorbByte x s with
    | .error f => .error f
    | .ok t => absorbBytes xs t

/-- ABSORB with a payload (R70). The phase is checked before any state is written (R68). -/
def execAbsorb (data : List Byte) (s : State) : Host.Outcome State Fault Refusal :=
  if accepting s then
    match absorbBytes data s with
    | .error f => .fault f
    | .ok t => .next (respond .ok [] t)
  else .next (raise .invalidState s)

/-- ABSORB.NULL (R71): the phase first, then the argument (R68, R117). It writes nothing. -/
def execAbsorbNull (cnt : BitVec 27) (s : State) : Host.Outcome State Fault Refusal :=
  if accepting s then
    if cnt = 0 then .next (respond .ok [] s) else .next (raise .invalidArgument s)
  else .next (raise .invalidState s)

end Sys2Proof.Machine
end

