-- ==== Sys2Proof/Machine/Construct.lean ====
section
/-! DEFINITION. INIT, the engine's construct (40_construct.md). -/

namespace Sys2Proof.Machine

/-- The initial constants of H[0] to H[4], the same for both variants (R14, R64). -/
def initialH : Regs := ⟨0x67452301, 0xEFCDAB89, 0x98BADCFE, 0x10325476, 0xC3D2E1F0⟩

/-- INIT v (R64): a fresh HashState, in every phase. BUF is left as it is. -/
def construct (v : Variant) (s : State) : State :=
  { s with variant := v, h := initialH, totbits := 0, len := 0, blkcnt := 0, phase := .accepting }

/-- INIT.SHA0 (R64). -/
def execInitSha0 (s : State) : Host.Outcome State Fault Refusal :=
  .next (respond .ok [] (construct .sha0 s))

/-- INIT.SHA1 (R64). -/
def execInitSha1 (s : State) : Host.Outcome State Fault Refusal :=
  .next (respond .ok [] (construct .sha1 s))

end Sys2Proof.Machine
end

