-- ==== Sys2Proof/Machine/Digest.lean ====
section
/-! DEFINITION. Digest serialisation, the last action of FINAL (44_digest.md R103), and the host-side
hexadecimal rendering of bytes (R105, R106). -/

namespace Sys2Proof.Machine

/-- The 20 digest bytes of the registers: big-endian, in register order (R103). -/
def serialize (h : Regs) : List Byte :=
  bytesBe32 h.h0 ++ bytesBe32 h.h1 ++ bytesBe32 h.h2 ++ bytesBe32 h.h3 ++ bytesBe32 h.h4

/-- The alphabet of R105. -/
def hexAlphabet : List Char :=
  ['0', '1', '2', '3', '4', '5', '6', '7', '8', '9', 'a', 'b', 'c', 'd', 'e', 'f']

/-- The character of a four-bit value (R105). -/
def hexDigit (n : BitVec 4) : Char := hexAlphabet.getD n.toNat '0'

/-- `toHexString` as characters: for each byte the character of bits 7 to 4, then that of bits 3 to 0
(R105). -/
def toHexChars : List Byte → List Char
  | [] => []
  | x :: xs => hexDigit (x.extractLsb' 4 4) :: hexDigit (x.extractLsb' 0 4) :: toHexChars xs

/-- `toHexString` (R105), a host-side function. -/
def toHexString (bytes : List Byte) : String := String.ofList (toHexChars bytes)

/-- The value of a lower-case hexadecimal character, if it is one (R106). -/
def hexVal (c : Char) : Option (BitVec 4) :=
  if c ∈ hexAlphabet then some (BitVec.ofNat 4 (hexAlphabet.idxOf c)) else none

/-- Reading characters back two by two (R106). -/
def fromHexChars : List Char → Option (List Byte)
  | [] => some []
  | [_] => none
  | c :: c' :: cs =>
    match hexVal c, hexVal c', fromHexChars cs with
    | some hi, some lo, some rest => some ((hi ++ lo) :: rest)
    | _, _, _ => none

/-- A quoted digest (R106): 40 characters, read two by two; any other number of characters is no
digest. -/
def readDigest (cs : List Char) : Option (List Byte) :=
  if cs.length = 40 then fromHexChars cs else none

end Sys2Proof.Machine
end

