-- ==== Sys2Proof/Machine/Finalize.lean ====
section
/-! DEFINITION. FINAL: the padding sequence and the delivery of the digest (43_finalize.md). -/

namespace Sys2Proof.Machine

/-- Step 1 (R94): the bits of the partial block, 8 for each byte in BUF. -/
def countPartial (s : State) : State :=
  { s with totbits := s.totbits + BitVec.ofNat 64 (8 * s.len.toNat) }

/-- Step 2 (R95): one 0x80 byte at BUF[LEN]; it is always appended. -/
def appendBit (s : State) : Except Fault State :=
  match bufWrite s.len.toNat [0x80] s with
  | .error f => .error f
  | .ok t => .ok { t with len := t.len + 1 }

/-- Step 3 (R96): when LEN exceeds 56, zero bytes up to index 63, one compression, and LEN back to 0. -/
def spill (s : State) : Except Fault State :=
  if twoBlock s then
    match bufWrite s.len.toNat (List.replicate (64 - s.len.toNat) 0) s with
    | .error f => .error f
    | .ok t => .ok { compress t with len := 0 }
  else .ok s

/-- Step 4 (R97): zero bytes from BUF[LEN] up to index 55. -/
def zeroFill (s : State) : Except Fault State :=
  bufWrite s.len.toNat (List.replicate (56 - s.len.toNat) 0) s

/-- Step 5 (R98): TOTBITS, big-endian, into BUF[56..63]. -/
def writeLength (s : State) : Except Fault State :=
  bufWrite 56 (bytesBe64 s.totbits) s

/-- PHASE <- Finalized (R100). LEN is unspecified from here on (10_state.md R29): a free value. Log
entry 6. -/
def close (s : State) : State :=
  { s with
    phase := .finalized
    len := BitVec.ofNat 7 (Config.lenAfterFinal s.freeCtr).val
    freeCtr := s.freeCtr + 1 }

/-- `finalize()`: steps 1 to 6 in order (R93), the last of them the compression of R99. -/
def finalize (s : State) : Except Fault State :=
  match appendBit (countPartial s) with
  | .error f => .error f
  | .ok s2 =>
    match spill s2 with
    | .error f => .error f
    | .ok s3 =>
      match zeroFill s3 with
      | .error f => .error f
      | .ok s4 =>
        match writeLength s4 with
        | .error f => .error f
        | .ok s5 => .ok (close (compress s5))

/-- FINAL (R93): finalize, then the 20 digest bytes in the response. -/
def execFinal (s : State) : Host.Outcome State Fault Refusal :=
  if accepting s then
    match finalize s with
    | .error f => .fault f
    | .ok t => .next (respond .ok (serialize t.h) t)
  else .next (raise .invalidState s)

end Sys2Proof.Machine
end

