-- ==== Sys2Proof/Machine/Dispatch.lean ====
section
/-! DEFINITION. Dispatch: one arm per command, each one call of its meaning. -/

namespace Sys2Proof.Machine

def exec (i : Instr) (s : State) : Host.Outcome State Fault Refusal :=
  match i with
  | .initSha0 => Sys2Proof.Machine.execInitSha0 s
  | .initSha1 => Sys2Proof.Machine.execInitSha1 s
  | .absorb data => Sys2Proof.Machine.execAbsorb data s
  | .absorbNull cnt => Sys2Proof.Machine.execAbsorbNull cnt s
  | .final => Sys2Proof.Machine.execFinal s

end Sys2Proof.Machine
end

