-- ==== Sys2Proof/Machine/Operands.lean ====
section
/-! DEFINITION. The operand forms: the fields of a command header (30_encoding.md R46, R50), each an
unsigned number with no scaling, shifting or sign extension. -/

namespace Sys2Proof.Machine

/-- `OPC`, header bits 31 to 28 (R46). -/
def headerOpc (hd : Word) : BitVec 4 := hd.extractLsb' 28 4

/-- `v`, header bit 0, of format V (R46, R50). -/
def headerV (hd : Word) : BitVec 1 := hd.extractLsb' 0 1

/-- `P`, header bit 27, of format L (R46, R50). -/
def headerP (hd : Word) : BitVec 1 := hd.extractLsb' 27 1

/-- `CNT`, header bits 26 to 0, of format L (R46, R50). -/
def headerCnt (hd : Word) : BitVec 27 := hd.extractLsb' 0 27

/-- Header bits 27 to 1, which format V wants zero (R46). -/
def headerZeroV (hd : Word) : BitVec 27 := hd.extractLsb' 1 27

/-- Header bits 27 to 0, which format N wants zero (R46). -/
def headerZeroN (hd : Word) : BitVec 28 := hd.extractLsb' 0 28

end Sys2Proof.Machine
end

