-- ==== Sys2Proof/WellFormed.lean ====
section
/-! DEFINITION. Which commands have an encoding (30_encoding.md R48, R50). -/

namespace Sys2Proof

/-- The payload of one ABSORB has at most 2^27 - 1 bytes, so that its length fits the 27-bit field
CNT (R48). The other commands are well-formed as they stand: their operands' types are their fields. -/
def Instr.wf : Instr → Bool
  | .initSha0 => true
  | .initSha1 => true
  | .absorb data => decide (data.length < 2 ^ 27)
  | .absorbNull _ => true
  | .final => true

end Sys2Proof
end

