-- ==== Sys2Proof/Decode.lean ====
section
/-! DEFINITION. The decoder of the command stream (30_encoding.md R46 to R53) and, after it, the
encoder written from the same tables. Decoding is total on any bytes and rejects by name. -/

namespace Sys2Proof

/-- Why a header is illegal (R53). -/
inductive Illegal where
  /-- OPC is 0b0000 or 0b0100 to 0b1111 (R51, R53). -/
  | unassignedOpcode
  /-- An INIT with any of bits 27 to 1 set (R47, R53). -/
  | initReservedBits
  /-- A FINAL with any of bits 27 to 0 set (R49, R53). -/
  | finalReservedBits
  deriving DecidableEq, Repr

/-- Where a stream without a whole command ends (R52). -/
inductive Incomplete where
  /-- No byte is left: every command of the stream has been taken. -/
  | noCommand
  /-- Inside a header. -/
  | header
  /-- Inside the payload of an ABSORB. -/
  | payload
  deriving DecidableEq, Repr

/-- What the decoder reads at the front of the command stream. -/
inductive Decoded where
  /-- A command, and the stream after it. -/
  | instr (i : Instr) (rest : List Byte)
  /-- An illegal header, and the stream after its four bytes (R52, R53). -/
  | illegal (why : Illegal) (rest : List Byte)
  /-- The stream ends before a whole command (R52). -/
  | incomplete (why : Incomplete)
  deriving DecidableEq, Repr

/-- The command of header `hd`, with `rest` the stream after the header (R51). -/
def decodeHeader (hd : Word) (rest : List Byte) : Decoded :=
  if Machine.headerOpc hd = 0b0001 then
    if Machine.headerZeroV hd = 0 then
      .instr (if Machine.headerV hd = 0 then .initSha0 else .initSha1) rest
    else .illegal .initReservedBits rest
  else if Machine.headerOpc hd = 0b0010 then
    if Machine.headerP hd = 1 then
      if rest.length < (Machine.headerCnt hd).toNat then .incomplete .payload
      else .instr (.absorb (rest.take (Machine.headerCnt hd).toNat)) (rest.drop (Machine.headerCnt hd).toNat)
    else .instr (.absorbNull (Machine.headerCnt hd)) rest
  else if Machine.headerOpc hd = 0b0011 then
    if Machine.headerZeroN hd = 0 then .instr .final rest
    else .illegal .finalReservedBits rest
  else .illegal .unassignedOpcode rest

/-- Read one command at the front of the stream: a header of four bytes, most significant byte first
(R46), and a payload if the header announces one (R52). -/
def decode : List Byte → Decoded
  | [] => .incomplete .noCommand
  | b0 :: b1 :: b2 :: b3 :: rest => decodeHeader (Machine.be32 b0 b1 b2 b3) rest
  | _ => .incomplete .header

/-- The header of a command (R47 to R49): opcode in bits 31 to 28, then the format's fields. -/
def encodeHeader : Instr → Word
  | .initSha0 => 0x10000000
  | .initSha1 => 0x10000001
  | .absorb data => (0b00101 : BitVec 5) ++ BitVec.ofNat 27 data.length
  | .absorbNull cnt => (0b00100 : BitVec 5) ++ cnt
  | .final => 0x30000000

/-- The payload bytes that follow the header (R46). -/
def encodePayload : Instr → List Byte
  | .initSha0 => []
  | .initSha1 => []
  | .absorb data => data
  | .absorbNull _ => []
  | .final => []

/-- The bytes of a command on the command stream (R46, R52). -/
def encode (i : Instr) : List Byte :=
  Machine.bytesBe32 (encodeHeader i) ++ encodePayload i

/-- The bytes of the command whose bits are `w`, numbered as spec/opcode_table.json numbers them: bits
31 to 0 are the header word, sent most significant byte first (R46), and bits from 32 up are payload
bytes in stream order. A header that announces a payload gets exactly CNT bytes; every bit from
`nbits` up is 0. -/
def tableBytes (nbits w : Nat) : List Byte :=
  let bits := w % 2 ^ nbits
  let hd := BitVec.ofNat 32 bits
  let cnt := if Machine.headerOpc hd = 0b0010 ∧ Machine.headerP hd = 1
    then (Machine.headerCnt hd).toNat else 0
  Machine.bytesBe32 hd ++ (List.range cnt).map fun k => BitVec.ofNat 8 (bits >>> (32 + 8 * k))

/-- The instruction the decoder reads from the opcode table's word `w`; none where it refuses. -/
def decodeTableWord (nbits w : Nat) : Option Instr :=
  match decode (tableBytes nbits w) with
  | .instr i _ => some i
  | .illegal _ _ => none
  | .incomplete _ => none

end Sys2Proof
end

