-- ==== Sys2Proof/Machine/Fetch.lean ====
section
/-! DEFINITION. Taking the next command off the command stream, and what an illegal header does. -/

namespace Sys2Proof.Machine

/-- The engine's fetch: the next command of the command stream (30_encoding.md R45, R52). -/
def fetch (s : State) : Decoded := decode s.cmd

/-- The command stream with the next command taken off it (R52): the whole command is consumed, a
faulting one's payload too (R54, R113). -/
def consume (rest : List Byte) (s : State) : State := { s with cmd := rest }

/-- IllegalCommand (60_exceptions.md R112): raised in every phase, nothing changes but the response. -/
def illegalCommand (s : State) : Host.Outcome State Fault Refusal :=
  .next (raise .illegalCommand s)

/-- A stream without a whole command (R52): no step. The refusal says whether bytes are missing or
the run is finished (70_reset_and_hazards.md R133). -/
def noStep : Incomplete → Host.Outcome State Fault Refusal
  | .noCommand => .refused .noCommand
  | .header => .refused .incompleteCommand
  | .payload => .refused .incompleteCommand

/-- The command stream with the opcode table's word `w` put before it. Log entry 10. -/
def placeWord (s : State) (nbits w : Nat) : State :=
  { s with cmd := tableBytes nbits w ++ s.cmd }

end Sys2Proof.Machine
end

