-- ==== Sys2Proof/Machine/Step.lean ====
section
/-! DEFINITION. One step: one whole host command (00_scope.md R7). -/

namespace Sys2Proof.Machine

/-- Take the next command off the command stream and run it to completion (R7, 20_memory.md R38). -/
def step (s : State) : Host.Outcome State Fault Refusal :=
  match fetch s with
  | .instr i rest => exec i (consume rest s)
  | .illegal _ rest => illegalCommand (consume rest s)
  | .incomplete why => noStep why

/-- `s` with the opcode table's word `w` where the next step fetches: at the front of the command
stream. -/
def State.withFetchWord (s : State) (nbits w : Nat) : State := placeWord s nbits w

end Sys2Proof.Machine
end

