-- ==== Sys2Proof/Machine/Pseudo.lean ====
section
/-! DEFINITION. The pseudo-instructions of 30_encoding.md R59, each with its expansion into commands,
and the run of a list of commands. -/

namespace Sys2Proof.Machine

/-- `ABSORB.B xx` (R59): one byte. -/
def absorbOne (x : Byte) : Instr := .absorb [x]

/-- `NOP` (R59): an ABSORB with an empty payload, header 0x28000000. -/
def nop : Instr := .absorb []

/-- `ABSORB.REP xx, n` (R59): `n` payload bytes all equal to `xx`. -/
def absorbRep (x : Byte) (n : Nat) : Instr := .absorb (List.replicate n x)

/-- The longest payload of one ABSORB (R48). -/
def maxPayload : Nat := 2 ^ 27 - 1

/-- Consecutive ABSORB commands for `data`, at most `k + 1` of them. -/
def absorbChunks : Nat → List Byte → List Instr
  | 0, data => [.absorb data]
  | k + 1, data =>
    if data.length ≤ maxPayload then [.absorb data]
    else .absorb (data.take maxPayload) :: absorbChunks k (data.drop maxPayload)

/-- `ABSORB` of any number of bytes (R59): as few commands as hold them, in order. -/
def absorbLong (data : List Byte) : List Instr := absorbChunks (data.length / maxPayload) data

/-- `HASH.SHA0 bytes` (R59): a whole digest. -/
def hashSha0 (data : List Byte) : List Instr := .initSha0 :: (absorbLong data ++ [.final])

/-- `HASH.SHA1 bytes` (R59): a whole digest. -/
def hashSha1 (data : List Byte) : List Instr := .initSha1 :: (absorbLong data ++ [.final])

/-- Commands taken as values (R45), one after another, each to completion (20_memory.md R38). -/
def execList : List Instr → State → Host.Outcome State Fault Refusal
  | [], s => .next s
  | i :: is, s =>
    match exec i s with
    | .next t => execList is t
    | .fault f => .fault f
    | .refused r => .refused r

/-- The command stream of a list of commands (R45): their encodings one after another. -/
def encodeList (is : List Instr) : List Byte := is.flatMap encode

end Sys2Proof.Machine
end

