-- ==== Sys2Proof/Machine/Assembler.lean ====
section
/-! DEFINITION. The assembler syntax of 30_encoding.md R58 and R59: one line of text to the commands it
stands for. Host side; nothing in the engine uses it. What R58 leaves open is in log entry 18. -/

namespace Sys2Proof.Machine

/-- Blanks between the words of a line. -/
def isBlank (c : Char) : Bool := c = ' ' || c = '\t'

/-- The line without its comment: `;` starts one (R58), but not inside a quoted text. -/
def stripComment : Bool → List Char → List Char
  | _, [] => []
  | quoted, c :: cs =>
    if c = '"' then c :: stripComment (!quoted) cs
    else if c = ';' && !quoted then []
    else c :: stripComment quoted cs

/-- The words of a text; blanks and, for `ABSORB.REP xx, n`, a comma separate them. -/
def wordsOf : List Char → List Char → List (List Char)
  | [], cur => if cur = [] then [] else [cur]
  | c :: cs, cur =>
    if isBlank c || c = ',' then (if cur = [] then wordsOf cs [] else cur :: wordsOf cs [])
    else wordsOf cs (cur ++ [c])

/-- The text after its leading blanks. -/
def trimLeft (cs : List Char) : List Char := cs.dropWhile isBlank

/-- The text without blanks at either end. -/
def trim (cs : List Char) : List Char := (trimLeft (trimLeft cs).reverse).reverse

/-- A decimal number (R58, `ABSORB.NULL n`). -/
def decimal (cs : List Char) : Option Nat :=
  if cs = [] then none
  else cs.foldl (fun acc c =>
    acc.bind fun n => if c.isDigit then some (10 * n + (c.toNat - '0'.toNat)) else none) (some 0)

/-- One byte written with two hexadecimal digits (R58). -/
def hexByte (cs : List Char) : Option Byte :=
  match fromHexChars cs with
  | some [x] => some x
  | _ => none

/-- A quoted ASCII text: its bytes, with no terminator (R58). The argument is what follows the opening
quote; the text ends with the line. -/
def quotedBytes : List Char → Option (List Byte)
  | [] => none
  | ['"'] => some []
  | c :: cs =>
    if c = '"' || 128 ≤ c.toNat then none
    else (quotedBytes cs).map fun bytes => BitVec.ofNat 8 c.toNat :: bytes

/-- The operand `<bytes>`: a quoted text, or bytes of two digits each, or nothing (R58). -/
def byteOperand (cs : List Char) : Option (List Byte) :=
  match cs with
  | '"' :: rest => quotedBytes rest
  | _ => (wordsOf cs []).mapM hexByte

/-- The commands of a mnemonic (upper case) and the text of its operands (R58, R59). -/
def assembleParts (mnemonic operands : List Char) : Option (List Instr) :=
  if mnemonic = "INIT.SHA0".toList then (if operands = [] then some [.initSha0] else none)
  else if mnemonic = "INIT.SHA1".toList then (if operands = [] then some [.initSha1] else none)
  else if mnemonic = "FINAL".toList then (if operands = [] then some [.final] else none)
  else if mnemonic = "NOP".toList then (if operands = [] then some [nop] else none)
  else if mnemonic = "ABSORB".toList then (byteOperand operands).map absorbLong
  else if mnemonic = "HASH.SHA0".toList then (byteOperand operands).map hashSha0
  else if mnemonic = "HASH.SHA1".toList then (byteOperand operands).map hashSha1
  else if mnemonic = "ABSORB.B".toList then (hexByte operands).map fun x => [absorbOne x]
  else if mnemonic = "ABSORB.NULL".toList then
    (decimal operands).bind fun n => if n < 2 ^ 27 then some [.absorbNull (BitVec.ofNat 27 n)] else none
  else if mnemonic = "ABSORB.REP".toList then
    match wordsOf operands [] with
    | [xx, n] =>
      (hexByte xx).bind fun x => (decimal n).bind fun k =>
        if k ≤ maxPayload then some [absorbRep x k] else none
    | _ => none
  else none

/-- One line (R58): no command on an empty line or a comment, none at all where the line is no
command of R58 or R59. -/
def assembleLine (line : List Char) : Option (List Instr) :=
  let text := trim (stripComment false line)
  if text = [] then some []
  else assembleParts (text.takeWhile fun c => !isBlank c) (trimLeft (text.dropWhile fun c => !isBlank c))

/-- A program, one command per line (R58). -/
def assemble (lines : List (List Char)) : Option (List Instr) :=
  (lines.mapM assembleLine).map List.flatten

end Sys2Proof.Machine
end

