-- ==== Sys2Proof/Machine/HostSide.lean ====
section
/-! DEFINITION. What the outside of one engine can do between steps: the host sends bytes
(30_encoding.md R45), the platform resets the engine (70_reset_and_hazards.md R130, R131); and a
platform of several engines (60_exceptions.md R124). -/

namespace Sys2Proof.Machine

/-- The host appends bytes to the command stream (R45). -/
def State.feed (bytes : List Byte) (s : State) : State := { s with cmd := s.cmd ++ bytes }

/-- Hardware reset between two steps (R130 item 1): the engine's own fields as `State.reset` has them.
The streams are the host's and the trace output is already out, so they stand. Log entry 13. -/
def State.hardwareReset (s : State) : State :=
  { State.reset with
    cmd := s.cmd
    resp := s.resp
    traceEn := s.traceEn
    trace := s.trace
    traceCtr := s.traceCtr
    freeCtr := s.freeCtr }

/-- One step of engine `k` of a platform of several (R124): the others stand still. None where there is
no engine `k`. Log entry 17. DESIGN CHOICE, unsafe: all engines draw their free values from the same
functions `Config.traceOutput` and `Config.lenAfterFinal`, where the spec leaves each engine's values
open for itself. Log entry 20. -/
def stepEngine (k : Nat) (engines : List State) : Option (Host.Outcome (List State) Fault Refusal) :=
  match engines[k]? with
  | none => none
  | some s =>
    match step s with
    | .next t => some (.next (engines.set k t))
    | .fault f => some (.fault f)
    | .refused r => some (.refused r)

end Sys2Proof.Machine
end

