-- ==== Sys2Proof/Safety.lean ====
section
/-! DEFINITION. What claims are stated with: the invariants of 10_state.md R25, the end of a run
(70_reset_and_hazards.md R133), and the digest of a message as a function of the message alone
(43_finalize.md R101, 44_digest.md R107). -/

namespace Sys2Proof.Machine

/-- What holds between steps (R25 items 1 and 2, R17): BUF in its canonical form, LEN a legal value,
and in phase Accepting LEN below 64 and TOTBITS a multiple of 512. -/
abbrev EngineInv (s : State) : Prop :=
  Buf.wf s.buf ∧ s.len.toNat ≤ 64 ∧
    (s.phase = .accepting → s.len.toNat < 64 ∧ s.totbits.toNat % 512 = 0)

/-- The run is finished: every command of the stream has its response (R133). -/
abbrev Finished (s : State) : Prop := s.cmd = []

/-- The run waits for bytes: the stream ends inside a command (30_encoding.md R52). -/
abbrev Waiting (s : State) : Prop :=
  decode s.cmd = .incomplete .header ∨ decode s.cmd = .incomplete .payload

/-- A step that does not stop the machine with a fault. -/
abbrev SafeStep (s : State) : Prop := ∀ f, step s ≠ .fault f

/-- The engine's own state is the same, whatever the streams and the side channel hold (R13). -/
abbrev SameEngine (s t : State) : Prop :=
  s.phase = t.phase ∧ s.variant = t.variant ∧ s.h = t.h ∧ s.totbits = t.totbits ∧
    s.buf = t.buf ∧ s.len = t.len ∧ s.blkcnt = t.blkcnt

/-- The zero bytes between the 0x80 byte and the length field of a message of `n` bytes (R101). -/
def padZeros (n : Nat) : Nat := (119 - n % 64) % 64

/-- The message with its padding (R101): 0x80, zero bytes, the length in bits modulo 2^64, big-endian.
A whole number of blocks. -/
def padded (msg : List Byte) : List Byte :=
  msg ++ 0x80 :: (List.replicate (padZeros msg.length) 0 ++ bytesBe64 (BitVec.ofNat 64 (8 * msg.length)))

/-- The registers after the first `n` blocks of `bytes`, from `h`. -/
def hashBlocks (v : Variant) : Nat → List Byte → Regs → Regs
  | 0, _, h => h
  | n + 1, bytes, h => hashBlocks v n (bytes.drop 64) (compressFn v h (bytes.take 64))

/-- The digest of a message: the blocks of the padded message from the initial constants, serialised. -/
def digestOf (v : Variant) (msg : List Byte) : List Byte :=
  serialize (hashBlocks v ((padded msg).length / 64) (padded msg) initialH)

/-- The engine has absorbed exactly the bytes `msg` since an INIT of variant `v`: whole blocks are in H
and counted (20_memory.md R31), the rest stands in BUF. -/
abbrev Represents (v : Variant) (msg : List Byte) (s : State) : Prop :=
  s.phase = .accepting ∧ s.variant = v ∧
    s.h = hashBlocks v (msg.length / 64) msg initialH ∧
    s.totbits = BitVec.ofNat 64 (512 * (msg.length / 64)) ∧
    s.blkcnt = BitVec.ofNat Config.blkcntWidth (msg.length / 64) ∧
    s.len.toNat = msg.length % 64 ∧
    Buf.readBytes s.buf 0 (msg.length % 64) = msg.drop (64 * (msg.length / 64))

/-- Two states a host cannot tell apart by any later command: they differ at most in stale bytes of
BUF, those from LEN up (10_state.md R18), and in nothing else. -/
abbrev SameButStale (s t : State) : Prop :=
  t = { s with buf := t.buf } ∧ ∀ j, j < s.len.toNat → Buf.read s.buf j = Buf.read t.buf j

/-- Two states that differ at most in the trace side channel (60_exceptions.md R122). -/
abbrev SameButTrace (s t : State) : Prop :=
  t = { s with traceEn := t.traceEn, trace := t.trace, traceCtr := t.traceCtr }

/-- What every command does besides its effect on the engine: one response, a status byte and then
`out` (30_encoding.md R55); the command stream and TRACE_EN stand; the trace output only grows, and
with TRACE_EN off it stands (60_exceptions.md R122). -/
abbrev Responded (code : Byte) (out : List Byte) (s t : State) : Prop :=
  t.resp = s.resp ++ code :: out ∧ t.cmd = s.cmd ∧ t.traceEn = s.traceEn ∧
    s.trace <+: t.trace ∧ (s.traceEn = false → t.trace = s.trace)

/-- The number a header's four bytes stand for, most significant byte first (30_encoding.md R46). -/
def headerNumber (b0 b1 b2 b3 : Byte) : Nat :=
  b0.toNat * 2 ^ 24 + b1.toNat * 2 ^ 16 + b2.toNat * 2 ^ 8 + b3.toNat

/-- The headers R53 calls illegal: OPC 0 or 4 to 15, an INIT with any of bits 27 to 1 set, a FINAL with
any of bits 27 to 0 set. -/
abbrev IllegalHeader (n : Nat) : Prop :=
  n / 2 ^ 28 = 0 ∨ 4 ≤ n / 2 ^ 28 ∨ (n / 2 ^ 28 = 1 ∧ n % 2 ^ 28 / 2 ≠ 0) ∨
    (n / 2 ^ 28 = 3 ∧ n % 2 ^ 28 ≠ 0)

/-- What both INITs write but for VARIANT, and what they do not touch (10_state.md R27). -/
abbrev FreshState (s t : State) : Prop :=
  t.phase = .accepting ∧ t.h = ⟨0x67452301, 0xEFCDAB89, 0x98BADCFE, 0x10325476, 0xC3D2E1F0⟩ ∧
    t.totbits = 0 ∧ t.len = 0 ∧ t.blkcnt = 0 ∧ t.freeCtr = s.freeCtr

/-- The length of the whole message in bits (R94). -/
def messageBits (s : State) : Word64 := s.totbits + BitVec.ofNat 64 (8 * s.len.toNat)

/-- The bytes of the partial block (10_state.md R18). -/
def partialBlock (s : State) : List Byte := Buf.readBytes s.buf 0 s.len.toNat

/-- The one block of R101 for `L <= 55`. -/
def oneBlock (s : State) : List Byte :=
  partialBlock s ++ 0x80 :: (List.replicate (55 - s.len.toNat) 0 ++ bytesBe64 (messageBits s))

/-- The first block of R101 for `L >= 56`. -/
def firstBlock (s : State) : List Byte :=
  partialBlock s ++ 0x80 :: List.replicate (63 - s.len.toNat) 0

/-- The second block of R101 for `L >= 56`. -/
def secondBlock (s : State) : List Byte := List.replicate 56 0 ++ bytesBe64 (messageBits s)

/-- Two outcomes of the same kind, next states related by `R` and stops for the same reason. -/
def Related (R : State → State → Prop) :
    Host.Outcome State Fault Refusal → Host.Outcome State Fault Refusal → Prop
  | .next s, .next t => R s t
  | .fault f, .fault g => f = g
  | .refused p, .refused q => p = q
  | _, _ => False

end Sys2Proof.Machine
end

