-- ==== Sys2Proof/Certificates/Slice0/Obligations.lean ====
section
/-! DEFINITION. The statements for the provers. Each docstring names the rule it rests on, and says
where a clause is the model's own choice. -/

open Sys2Proof Sys2Proof.Machine

/-- Worked encodings of 30_encoding.md section 9 (R60), commands and illegal headers. -/
def Obligations.SpecHeadersDecode : Prop :=
  decode [0x10, 0, 0, 1] = .instr .initSha1 [] ∧
  decode [0x10, 0, 0, 0] = .instr .initSha0 [] ∧
  decode [0x28, 0, 0, 3, 0x61, 0x62, 0x63] = .instr (.absorb [0x61, 0x62, 0x63]) [] ∧
  decode [0x28, 0, 0, 0] = .instr (.absorb []) [] ∧
  decode [0x20, 0, 0, 0] = .instr (.absorbNull 0) [] ∧
  decode [0x20, 0, 0, 5] = .instr (.absorbNull 5) [] ∧
  decode [0x30, 0, 0, 0] = .instr .final [] ∧
  decode [0x00, 0, 0, 0] = .illegal .unassignedOpcode [] ∧
  decode [0x10, 0, 0, 2] = .illegal .initReservedBits [] ∧
  decode [0x30, 0, 0, 1] = .illegal .finalReservedBits [] ∧
  decode [0xFF, 0xFF, 0xFF, 0xFF] = .illegal .unassignedOpcode []

/-- Encoding and then decoding gives the command back, with every operand (R46 to R50). -/
def Obligations.EncodedCommandDecodesToItself : Prop :=
  ∀ (i : Instr) (rest : List Byte), i.wf = true → decode (encode i ++ rest) = .instr i rest

/-- Decoding and then encoding gives the bytes back: no two encodings stand for one command, and what
is decoded is well-formed (R46 to R51). -/
def Obligations.DecodedCommandEncodesToItsBytes : Prop :=
  ∀ (bytes : List Byte) (i : Instr) (rest : List Byte), decode bytes = .instr i rest →
    i.wf = true ∧ encode i ++ rest = bytes

/-- The decoder refuses exactly the headers that R53 calls illegal, and takes the four bytes of each and
no more (R52): what follows the header is the rest, whenever it answers `illegal`. -/
def Obligations.IllegalHeadersAreExactlyTheReserved : Prop :=
  ∀ (b0 b1 b2 b3 : Byte) (rest : List Byte),
    ((∃ why, decode (b0 :: b1 :: b2 :: b3 :: rest) = .illegal why rest) ↔
      IllegalHeader (headerNumber b0 b1 b2 b3)) ∧
    ∀ why rest', decode (b0 :: b1 :: b2 :: b3 :: rest) = .illegal why rest' → rest' = rest

/-- The operands of both ABSORB forms (R48, R50), and the length of a command with a payload (R52). -/
def Obligations.AbsorbHeadersCarryTheirOperands : Prop :=
  ∀ (b0 b1 b2 b3 : Byte) (rest : List Byte),
    (0x20000000 ≤ headerNumber b0 b1 b2 b3 → headerNumber b0 b1 b2 b3 < 0x28000000 →
      decode (b0 :: b1 :: b2 :: b3 :: rest) =
        .instr (.absorbNull (BitVec.ofNat 27 (headerNumber b0 b1 b2 b3 - 0x20000000))) rest) ∧
    (0x28000000 ≤ headerNumber b0 b1 b2 b3 → headerNumber b0 b1 b2 b3 < 0x30000000 →
      headerNumber b0 b1 b2 b3 - 0x28000000 ≤ rest.length →
      decode (b0 :: b1 :: b2 :: b3 :: rest) =
        .instr (.absorb (rest.take (headerNumber b0 b1 b2 b3 - 0x28000000)))
          (rest.drop (headerNumber b0 b1 b2 b3 - 0x28000000)))

/-- A stream without a whole command gives no step (R52). That the model names this a refusal, and one
of its own for the empty stream, is its choice: log entry 2. -/
def Obligations.CutShortStreamHasNoStep : Prop :=
  ∀ s : State,
    (s.cmd = [] → step s = .refused .noCommand) ∧
    (s.cmd ≠ [] → s.cmd.length < 4 → step s = .refused .incompleteCommand) ∧
    (∀ (b0 b1 b2 b3 : Byte) (rest : List Byte), s.cmd = b0 :: b1 :: b2 :: b3 :: rest →
      0x28000000 ≤ headerNumber b0 b1 b2 b3 → headerNumber b0 b1 b2 b3 < 0x30000000 →
      rest.length < headerNumber b0 b1 b2 b3 - 0x28000000 → step s = .refused .incompleteCommand)

/-- A step takes the whole command off the stream and runs it (R7, R45, R52; the streams stand in State
by log entry 1). -/
def Obligations.StepRunsTheDecodedCommand : Prop :=
  ∀ (s : State) (i : Instr) (rest : List Byte), decode s.cmd = .instr i rest →
    step s = exec i { s with cmd := rest }

/-- The opcode table's word, placed where the next step fetches, runs next (log entry 10). -/
def Obligations.PlacedTableWordRunsNext : Prop :=
  ∀ (s : State) (nbits w : Nat) (i : Instr), decodeTableWord nbits w = some i →
    step (s.withFetchWord nbits w) = exec i s

/-- IllegalCommand (R112): status 0x03 in every phase, four bytes consumed, nothing else. (The trace
output, which R122 leaves open, only grows, and with TRACE_EN off it stands.) -/
def Obligations.IllegalHeaderAnswersIllegalCommand : Prop :=
  ∀ (s : State) (b0 b1 b2 b3 : Byte) (rest : List Byte), s.cmd = b0 :: b1 :: b2 :: b3 :: rest →
    IllegalHeader (headerNumber b0 b1 b2 b3) →
    ∃ t, step s = .next t ∧ SameEngine s t ∧ t.freeCtr = s.freeCtr ∧
      Responded 0x03 [] { s with cmd := rest } t

/-- INIT from every state, whatever its phase: the values of R27. (BUF, which R27 leaves unspecified, is in
`InitLeavesTheBuffer`.) -/
def Obligations.InitWritesTheFreshState : Prop :=
  ∀ s : State,
    (∃ t, exec .initSha0 s = .next t ∧ t.variant = .sha0 ∧ FreshState s t ∧ Responded 0x00 [] s t) ∧
    (∃ t, exec .initSha1 s = .next t ∧ t.variant = .sha1 ∧ FreshState s t ∧ Responded 0x00 [] s t)

/-- INIT does not clear BUF: its frame in memory. R27 leaves BUF unspecified there and R66 lets a model
clear it; that every byte stands is the model's choice, log entry 5. -/
def Obligations.InitLeavesTheBuffer : Prop :=
  ∀ (s t : State), exec .initSha0 s = .next t ∨ exec .initSha1 s = .next t →
    ∀ a, Buf.read t.buf a = Buf.read s.buf a

/-- ABSORB in phase Accepting runs to completion (R70): the fill, the counters, and all it leaves. -/
def Obligations.AbsorbCountsBytesAndFlushes : Prop :=
  ∀ (s : State) (data : List Byte), s.phase = .accepting → s.len.toNat < 64 →
    ∃ t, exec (.absorb data) s = .next t ∧
      t.len.toNat = (s.len.toNat + data.length) % 64 ∧
      t.totbits = s.totbits + BitVec.ofNat 64 (512 * ((s.len.toNat + data.length) / 64)) ∧
      t.blkcnt = s.blkcnt + BitVec.ofNat Config.blkcntWidth ((s.len.toNat + data.length) / 64) ∧
      (s.len.toNat + data.length < 64 → t.h = s.h) ∧
      t.phase = .accepting ∧ t.variant = s.variant ∧ t.freeCtr = s.freeCtr ∧ Responded 0x00 [] s t

/-- ABSORB compresses the held bytes and the payload block by block, in order, and holds the rest
(R31, R69, R70). -/
def Obligations.AbsorbCompressesWholeBlocksInOrder : Prop :=
  ∀ (s : State) (data : List Byte), s.phase = .accepting → s.len.toNat < 64 →
    ∃ t, exec (.absorb data) s = .next t ∧
      t.h = hashBlocks s.variant ((s.len.toNat + data.length) / 64) (partialBlock s ++ data) s.h ∧
      partialBlock t = (partialBlock s ++ data).drop (64 * ((s.len.toNat + data.length) / 64))

/-- ABSORB stores byte `k` of its payload at BUF[(LEN + k) mod 64] (R31); every other byte of BUF is
as before, and so is every address outside BUF. -/
def Obligations.AbsorbStoresOnlyAtTheWritePointer : Prop :=
  ∀ (s : State) (data : List Byte), s.phase = .accepting → s.len.toNat < 64 →
    ∃ t, exec (.absorb data) s = .next t ∧
      (∀ k, k < data.length → data.length ≤ k + 64 →
        Buf.read t.buf ((s.len.toNat + k) % 64) = data.getD k 0) ∧
      (∀ a, (∀ k, k < data.length → (s.len.toNat + k) % 64 ≠ a) → Buf.read t.buf a = Buf.read s.buf a)

/-- `absorb_byte` (R69): the byte goes to BUF[LEN]; the 64th is flushed at once; LEN stays below 64. -/
def Obligations.AbsorbByteFlushesOnTheLastByte : Prop :=
  ∀ (x : Byte) (s : State), s.phase = .accepting → s.len.toNat ≤ 63 →
    ∃ t, absorbByte x s = .ok t ∧ t.len.toNat ≤ 63 ∧
      (∀ a, Buf.read t.buf a = if a = s.len.toNat then x else Buf.read s.buf a) ∧
      (s.len.toNat < 63 → t.len.toNat = s.len.toNat + 1 ∧ t.h = s.h ∧ t.totbits = s.totbits ∧
        t.blkcnt = s.blkcnt) ∧
      (s.len.toNat = 63 → t.len.toNat = 0 ∧ t.h = compressFn s.variant s.h (partialBlock s ++ [x]) ∧
        t.totbits.toNat = (s.totbits.toNat + 512) % 2 ^ 64 ∧ t.blkcnt = s.blkcnt + 1) ∧
      t.phase = s.phase ∧ t.variant = s.variant ∧ t.cmd = s.cmd ∧ t.resp = s.resp ∧
      t.traceEn = s.traceEn ∧ t.trace = s.trace ∧ t.traceCtr = s.traceCtr ∧ t.freeCtr = s.freeCtr

/-- Streaming equivalence (R73): any cut of a payload into ABSORB commands, empty ones included,
leaves the state one ABSORB leaves; ABSORB.NULL 0 changes nothing; the digests agree. -/
def Obligations.AnyCutOfThePayloadIsTheSame : Prop :=
  ∀ (s : State) (chunks : List (List Byte)), s.phase = .accepting → s.len.toNat < 64 →
    ∃ t u, execList (chunks.map Instr.absorb) s = .next t ∧
      exec (.absorb chunks.flatten) s = .next u ∧ SameEngine t u ∧
      (∃ n, exec (.absorbNull 0) t = .next n ∧ SameEngine t n) ∧
      (∃ t' u' out, exec .final t = .next t' ∧ exec .final u = .next u' ∧
        t'.resp = t.resp ++ 0x00 :: out ∧ u'.resp = u.resp ++ 0x00 :: out)

/-- A payload too long for one ABSORB, sent as the pseudo-instruction sends it (R59): each command is
well-formed, and together they absorb all the bytes in order. The right side, `exec` of one ABSORB
value with all of them, is a command no encoding gives once there are 2^27 bytes or more (R48): that
`exec` runs such a value is the model's choice, log entry 19. -/
def Obligations.LongAbsorbIsOneAbsorb : Prop :=
  ∀ (s : State) (data : List Byte), s.phase = .accepting → s.len.toNat < 64 →
    (∀ i ∈ absorbLong data, i.wf = true) ∧
    ∃ t u, execList (absorbLong data) s = .next t ∧ exec (.absorb data) s = .next u ∧ SameEngine t u

/-- InvalidState (R111): both ABSORB forms, any length, and FINAL, in every phase but Accepting. -/
def Obligations.OutsideAcceptingIsInvalidState : Prop :=
  ∀ (s : State), s.phase ≠ .accepting → ∀ i : Instr, i ≠ .initSha0 → i ≠ .initSha1 →
    ∃ t, exec i s = .next t ∧ SameEngine s t ∧ t.freeCtr = s.freeCtr ∧ Responded 0x02 [] s t

/-- ABSORB.NULL in phase Accepting (R71): a no-op with status OK for CNT = 0, InvalidArgument
otherwise (R110); nothing is written either way. -/
def Obligations.AbsorbNullIsNoOpOrInvalidArgument : Prop :=
  ∀ (s : State) (cnt : BitVec 27), s.phase = .accepting →
    ∃ t, exec (.absorbNull cnt) s = .next t ∧ SameEngine s t ∧ t.freeCtr = s.freeCtr ∧
      (cnt = 0 → Responded 0x00 [] s t) ∧ (cnt ≠ 0 → Responded 0x01 [] s t)

/-- The status InvalidArgument has one cause (R110): an ABSORB without a payload and with a length that
is not zero, in phase Accepting. A step answers it exactly there, and the response is then the status
byte and nothing else. -/
def Obligations.InvalidArgumentHasOneCause : Prop :=
  ∀ s : State,
    ((∃ t out, step s = .next t ∧ t.resp = s.resp ++ 0x01 :: out) ↔
      s.phase = .accepting ∧ ∃ cnt rest, decode s.cmd = .instr (.absorbNull cnt) rest ∧ cnt ≠ 0) ∧
    (∀ cnt rest, s.phase = .accepting → decode s.cmd = .instr (.absorbNull cnt) rest → cnt ≠ 0 →
      ∃ t, step s = .next t ∧ t.resp = s.resp ++ [0x01])

/-- NOP (R59) has no effect in phase Accepting. -/
def Obligations.NopHasNoEffect : Prop :=
  ∀ s : State, s.phase = .accepting →
    ∃ t, exec nop s = .next t ∧ SameEngine s t ∧ t.freeCtr = s.freeCtr ∧ Responded 0x00 [] s t

/-- FINAL with at most 55 bytes held (R101): one block, one compression, the 20 bytes of the new H. -/
def Obligations.FinalWithOneBlock : Prop :=
  ∀ s : State, s.phase = .accepting → s.len.toNat ≤ 55 →
    ∃ t, exec .final s = .next t ∧
      t.h = compressFn s.variant s.h (partialBlock s ++ 0x80 ::
        (List.replicate (55 - s.len.toNat) 0 ++
          bytesBe64 (s.totbits + BitVec.ofNat 64 (8 * s.len.toNat)))) ∧
      Buf.readBytes t.buf 0 64 = partialBlock s ++ 0x80 ::
        (List.replicate (55 - s.len.toNat) 0 ++
          bytesBe64 (s.totbits + BitVec.ofNat 64 (8 * s.len.toNat))) ∧
      (∀ a, 64 ≤ a → Buf.read t.buf a = Buf.read s.buf a) ∧
      t.totbits = s.totbits + BitVec.ofNat 64 (8 * s.len.toNat) ∧
      t.blkcnt = s.blkcnt + 1 ∧ t.phase = .finalized ∧ t.variant = s.variant ∧
      t.len.toNat ≤ 64 ∧ Responded 0x00 (serialize t.h) s t

/-- FINAL with 56 to 63 bytes held (R96, R101): two blocks, two compressions. -/
def Obligations.FinalWithTwoBlocks : Prop :=
  ∀ s : State, s.phase = .accepting → 56 ≤ s.len.toNat → s.len.toNat ≤ 63 →
    ∃ t, exec .final s = .next t ∧
      t.h = compressFn s.variant
        (compressFn s.variant s.h (partialBlock s ++ 0x80 :: List.replicate (63 - s.len.toNat) 0))
        (List.replicate 56 0 ++ bytesBe64 (s.totbits + BitVec.ofNat 64 (8 * s.len.toNat))) ∧
      Buf.readBytes t.buf 0 64 =
        List.replicate 56 0 ++ bytesBe64 (s.totbits + BitVec.ofNat 64 (8 * s.len.toNat)) ∧
      (∀ a, 64 ≤ a → Buf.read t.buf a = Buf.read s.buf a) ∧
      t.totbits = s.totbits + BitVec.ofNat 64 (8 * s.len.toNat) ∧
      t.blkcnt = s.blkcnt + 2 ∧ t.phase = .finalized ∧ t.variant = s.variant ∧
      t.len.toNat ≤ 64 ∧ Responded 0x00 (serialize t.h) s t

/-- The digest bytes of a FINAL (R103): 20 of them, four for each register in order, the most
significant first; H is read, not changed by the serialisation. -/
def Obligations.FinalDeliversRegistersBigEndian : Prop :=
  ∀ s : State, s.phase = .accepting → s.len.toNat < 64 →
    ∃ t out, exec .final s = .next t ∧ t.resp = s.resp ++ 0x00 :: out ∧ out.length = 20 ∧
      ∀ j k, j < 5 → k < 4 →
        (out.getD (4 * j + k) 0).toNat =
          (([t.h.h0, t.h.h1, t.h.h2, t.h.h3, t.h.h4] : List Word).getD j 0).toNat / 2 ^ (24 - 8 * k) % 256

/-- MODEL'S OWN STOP (log entry 9): with LEN at 64 or above, which R17 and R25 say never stands between
steps, the write to BUF[LEN] is outside the buffer and the machine stops. -/
def Obligations.WritePointerOutsideBufFaults : Prop :=
  ∀ (s : State) (x : Byte) (xs : List Byte), s.phase = .accepting → 64 ≤ s.len.toNat →
    exec (.absorb (x :: xs)) s = .fault (.bufferIndex s.len.toNat) ∧
    exec .final s = .fault (.bufferIndex s.len.toNat)

/-- Parse (R79): sixteen big-endian words, byte `4t` the top byte of `w[t]`. -/
def Obligations.ParseIsBigEndian : Prop :=
  ∀ block : List Byte, block.length = 64 → (parse block).length = 16 ∧
    ∀ t, t < 16 → ((parse block).getD t 0).toNat =
      (block.getD (4 * t) 0).toNat * 2 ^ 24 + (block.getD (4 * t + 1) 0).toNat * 2 ^ 16 +
        (block.getD (4 * t + 2) 0).toNat * 2 ^ 8 + (block.getD (4 * t + 3) 0).toNat

/-- The schedule (R80, R83): the sixteen words, then 64 more by the recurrence. -/
def Obligations.ScheduleFollowsTheRecurrence : Prop :=
  ∀ (v : Variant) (words : List Word), words.length = 16 →
    (schedule v.rotation words).length = 80 ∧
    (∀ i, i < 16 → (schedule v.rotation words).getD i 0 = words.getD i 0) ∧
    (∀ i, 16 ≤ i → i < 80 → (schedule v.rotation words).getD i 0 =
      BitVec.rotateLeft ((schedule v.rotation words).getD (i - 3) 0 ^^^
        (schedule v.rotation words).getD (i - 8) 0 ^^^ (schedule v.rotation words).getD (i - 14) 0 ^^^
        (schedule v.rotation words).getD (i - 16) 0) (if v = .sha1 then 1 else 0))

/-- The rotation primitive in numbers (R10), the case of no places included. -/
def Obligations.RotationFollowsTheFormula : Prop :=
  ∀ (x : Word) (n : Nat), n < 32 → (rotl32 x n).toNat =
    if n = 0 then x.toNat else (x.toNat * 2 ^ n) % 2 ^ 32 + x.toNat / 2 ^ (32 - n)

/-- The three round functions bit by bit (R86, R87, R88). -/
def Obligations.RoundFunctionsBitByBit : Prop :=
  ∀ (b c d : Word) (p : Nat), p < 32 →
    (choice b c d).getLsbD p = (if b.getLsbD p then c.getLsbD p else d.getLsbD p) ∧
    (parity b c d).getLsbD p = ((b.getLsbD p).xor (c.getLsbD p)).xor (d.getLsbD p) ∧
    (majority b c d).getLsbD p =
      decide (2 ≤ (b.getLsbD p).toNat + (c.getLsbD p).toNat + (d.getLsbD p).toNat)

/-- The selection of function and constant by round (R85). -/
def Obligations.RoundSelectionByRange : Prop :=
  ∀ (i : Nat) (b c d : Word),
    (i < 20 → roundF i b c d = ((b &&& c) ||| (~~~b &&& d)) ∧ roundK i = 0x5A827999) ∧
    (20 ≤ i → i < 40 → roundF i b c d = (b ^^^ c ^^^ d) ∧ roundK i = 0x6ED9EBA1) ∧
    (40 ≤ i → i < 60 → roundF i b c d = ((b &&& c) ||| (b &&& d) ||| (c &&& d)) ∧
      roundK i = 0x8F1BBCDC) ∧
    (60 ≤ i → i < 80 → roundF i b c d = (b ^^^ c ^^^ d) ∧ roundK i = 0xCA62C1D6)

/-- The compression as a whole (R76, R84, R89, R90): load, 80 rounds in order with round `i` reading
`w[i]`, each additions modulo 2^32 from the values at the start of the round, then the add back. -/
def Obligations.CompressionRunsEightyRounds : Prop :=
  ∀ (v : Variant) (h : Regs) (block : List Byte), block.length = 64 →
    ∃ V : Nat → Working,
      V 0 = ⟨h.h0, h.h1, h.h2, h.h3, h.h4⟩ ∧
      (∀ i, i < 80 →
        (V (i + 1)).a.toNat = ((BitVec.rotateLeft (V i).a 5).toNat +
          (roundF i (V i).b (V i).c (V i).d).toNat + (V i).e.toNat + (roundK i).toNat +
          ((schedule v.rotation (parse block)).getD i 0).toNat) % 2 ^ 32 ∧
        (V (i + 1)).b = (V i).a ∧ (V (i + 1)).c = BitVec.rotateLeft (V i).b 30 ∧
        (V (i + 1)).d = (V i).c ∧ (V (i + 1)).e = (V i).d) ∧
      compressFn v h block = ⟨h.h0 + (V 80).a, h.h1 + (V 80).b, h.h2 + (V 80).c, h.h3 + (V 80).d,
        h.h4 + (V 80).e⟩

/-- A block whose words are each all zeros or all ones has the same compression under both variants
(R92 item 2). -/
def Obligations.ConstantWordBlocksIgnoreTheVariant : Prop :=
  ∀ (h : Regs) (block : List Byte), block.length = 64 →
    (∀ t, t < 16 → (parse block).getD t 0 = 0 ∨ (parse block).getD t 0 = 0xFFFFFFFF) →
    compressFn .sha0 h block = compressFn .sha1 h block

/-- The length field of a last block is the words 14 and 15 of its parse (R34, R98). -/
def Obligations.LengthFieldIsTheLastTwoWords : Prop :=
  ∀ (front : List Byte) (bits : Word64), front.length = 56 →
    (parse (front ++ bytesBe64 bits)).getD 14 0 = bits.extractLsb' 32 32 ∧
    (parse (front ++ bytesBe64 bits)).getD 15 0 = bits.extractLsb' 0 32

/-- The invariant of 10_state.md R25 (items 1 and 2) and R17, and the canonical form of BUF, is kept by
every step. -/
def Obligations.EveryStepKeepsTheInvariant : Prop :=
  ∀ s t : State, EngineInv s → step s = .next t → EngineInv t

/-- The invariant holds after hardware reset. (It rests on the values the model names for LEN and BUF,
log entries 3 and 4.) -/
def Obligations.ResetMeetsTheInvariant : Prop := EngineInv State.reset

/-- Under the invariant no step stops with a fault: the model's own stop is never reached (R31, R115). -/
def Obligations.InvariantExcludesFaults : Prop := ∀ s : State, EngineInv s → SafeStep s

/-- After hardware reset the phase is Idle (R28, R130), and hardware reset between steps leaves the
streams, the host's, as they stand (log entry 13). -/
def Obligations.HardwareResetIsIdle : Prop :=
  State.reset.phase = .idle ∧
  ∀ s : State, s.hardwareReset.phase = .idle ∧ s.hardwareReset.cmd = s.cmd ∧
    s.hardwareReset.resp = s.resp

/-- Every step writes exactly one response (R55): a status byte of R57, and 20 digest bytes after it if
and only if the command was a FINAL that ended with OK. -/
def Obligations.EveryStepWritesOneResponse : Prop :=
  ∀ s t : State, step s = .next t →
    ∃ (b : Byte) (out : List Byte), t.resp = s.resp ++ b :: out ∧
      (b = 0x00 ∨ b = 0x01 ∨ b = 0x02 ∨ b = 0x03) ∧
      ((b = 0x00 ∧ ∃ rest, decode s.cmd = .instr .final rest) → out.length = 20 ∧ out = serialize t.h) ∧
      (¬(b = 0x00 ∧ ∃ rest, decode s.cmd = .instr .final rest) → out = [])

/-- A step whose status is not OK changes no state of the engine and consumes the whole command (R113,
R54). -/
def Obligations.FaultedCommandChangesNothing : Prop :=
  ∀ (s t : State) (b : Byte) (out : List Byte), step s = .next t → t.resp = s.resp ++ b :: out →
    b ≠ 0x00 → SameEngine s t ∧ out = [] ∧ t.freeCtr = s.freeCtr ∧ t.traceEn = s.traceEn ∧
      ((∃ i, decode s.cmd = .instr i t.cmd) ∨ (∃ why, decode s.cmd = .illegal why t.cmd))

/-- The table of status by command and phase (R118). -/
def Obligations.StatusByCommandAndPhase : Prop :=
  ∀ s : State,
    (∃ t, exec .initSha0 s = .next t ∧ t.resp = s.resp ++ [0x00]) ∧
    (∃ t, exec .initSha1 s = .next t ∧ t.resp = s.resp ++ [0x00]) ∧
    (s.phase = .accepting → s.len.toNat < 64 →
      (∀ data, ∃ t, exec (.absorb data) s = .next t ∧ t.resp = s.resp ++ [0x00]) ∧
      (∃ t, exec (.absorbNull 0) s = .next t ∧ t.resp = s.resp ++ [0x00]) ∧
      (∀ cnt, cnt ≠ 0 → ∃ t, exec (.absorbNull cnt) s = .next t ∧ t.resp = s.resp ++ [0x01]) ∧
      (∃ t out, exec .final s = .next t ∧ t.resp = s.resp ++ 0x00 :: out ∧ out.length = 20)) ∧
    (s.phase = .idle ∨ s.phase = .finalized →
      (∀ data, ∃ t, exec (.absorb data) s = .next t ∧ t.resp = s.resp ++ [0x02]) ∧
      (∀ cnt, ∃ t, exec (.absorbNull cnt) s = .next t ∧ t.resp = s.resp ++ [0x02]) ∧
      (∃ t, exec .final s = .next t ∧ t.resp = s.resp ++ [0x02])) ∧
    (∀ (b0 b1 b2 b3 : Byte) (rest : List Byte), s.cmd = b0 :: b1 :: b2 :: b3 :: rest →
      IllegalHeader (headerNumber b0 b1 b2 b3) → ∃ t, step s = .next t ∧ t.resp = s.resp ++ [0x03])

/-- The phase after each command (R19). -/
def Obligations.PhaseTransitions : Prop :=
  ∀ (i : Instr) (s t : State), exec i s = .next t →
    t.phase = match i with
      | .initSha0 => .accepting
      | .initSha1 => .accepting
      | .absorb _ => s.phase
      | .absorbNull _ => s.phase
      | .final => if s.phase = .accepting then .finalized else s.phase

/-- H changes only inside INIT and compress, VARIANT only inside INIT (R25 items 4 and 5); the command
stream and TRACE_EN are no command's to change. -/
def Obligations.OnlyInitAndCompressChangeRegisters : Prop :=
  ∀ (i : Instr) (s t : State), exec i s = .next t →
    (t.h ≠ s.h → i = .initSha0 ∨ i = .initSha1 ∨ i = .final ∨
      ∃ data, i = .absorb data ∧ 64 ≤ s.len.toNat + data.length) ∧
    (t.variant ≠ s.variant → i = .initSha0 ∨ i = .initSha1) ∧
    t.cmd = s.cmd ∧ t.traceEn = s.traceEn ∧ s.resp <+: t.resp ∧ s.trace <+: t.trace

/-- INIT leaves nothing of the state before it but stale bytes of BUF (R65, R66): from any two states
with the same streams it gives states no later command tells apart. (Both states draw the same free
values, log entry 20.) -/
def Obligations.InitForgetsTheOldComputation : Prop :=
  ∀ (s s' : State), s.cmd = s'.cmd → s.resp = s'.resp → s.traceEn = s'.traceEn → s.trace = s'.trace →
    s.traceCtr = s'.traceCtr → s.freeCtr = s'.freeCtr →
    Related SameButStale (exec .initSha0 s) (exec .initSha0 s') ∧
    Related SameButStale (exec .initSha1 s) (exec .initSha1 s')

/-- Stale bytes of BUF, those from LEN up, influence no response and no other field, by any step
(R18, R25 item 3). (Both states draw the same free values, log entry 20.) -/
def Obligations.StaleBytesInfluenceNothing : Prop :=
  ∀ s s' : State, SameButStale s s' → Related SameButStale (step s) (step s')

/-- The trace side channel (R122): with it on or off, whatever it emitted, every step does the same to
everything else; with it off, a step emits nothing; no step turns it on or off. (Both states draw the same free value
for LEN after FINAL, log entry 20.) -/
def Obligations.TraceInfluencesNothing : Prop :=
  (∀ s s' : State, SameButTrace s s' → Related SameButTrace (step s) (step s')) ∧
  ∀ s t : State, step s = .next t → t.traceEn = s.traceEn ∧ (s.traceEn = false → t.trace = s.trace)

/-- The padded message is a whole number of blocks, as many as R101 says. -/
def Obligations.PaddedMessageIsWholeBlocks : Prop :=
  ∀ msg : List Byte, (padded msg).length % 64 = 0 ∧
    (padded msg).length / 64 = msg.length / 64 + (if msg.length % 64 ≤ 55 then 1 else 2)

/-- The engine after INIT and ABSORB commands stands for the message absorbed since the INIT (R31,
R64, R70), and a fault in between leaves it so (R114). -/
def Obligations.EngineStandsForTheMessage : Prop :=
  (∀ s : State, (∃ t, exec .initSha0 s = .next t ∧ Represents .sha0 [] t) ∧
    (∃ t, exec .initSha1 s = .next t ∧ Represents .sha1 [] t)) ∧
  ∀ (v : Variant) (msg : List Byte) (s : State), Represents v msg s →
    (∀ data, ∃ t, exec (.absorb data) s = .next t ∧ Represents v (msg ++ data) t) ∧
    (∀ cnt, ∃ t, exec (.absorbNull cnt) s = .next t ∧ Represents v msg t)

/-- FINAL delivers the digest of the message the engine stands for: the blocks of the padded message
folded from the initial constants (R93, R101, R107). -/
def Obligations.FinalDeliversTheDigestOfTheMessage : Prop :=
  ∀ (v : Variant) (msg : List Byte) (s : State), Represents v msg s →
    ∃ t, exec .final s = .next t ∧ Responded 0x00 (digestOf v msg) s t

/-- A whole computation from any state at all (R107): an INIT, any commands that absorb, a FINAL. The
digest depends on the variant and on the bytes absorbed in between, not on how they were cut, on
ABSORB.NULL commands among them, or on what the engine held before. -/
def Obligations.DigestDependsOnVariantAndMessageOnly : Prop :=
  ∀ (s : State) (cmds : List Instr),
    (∀ i ∈ cmds, i ≠ .initSha0 ∧ i ≠ .initSha1 ∧ i ≠ .final) →
    (∃ t codes, execList (.initSha0 :: (cmds ++ [.final])) s = .next t ∧ codes.length = cmds.length ∧
      t.resp = s.resp ++ 0x00 :: (codes ++ 0x00 :: digestOf .sha0 (cmds.flatMap encodePayload))) ∧
    (∃ t codes, execList (.initSha1 :: (cmds ++ [.final])) s = .next t ∧ codes.length = cmds.length ∧
      t.resp = s.resp ++ 0x00 :: (codes ++ 0x00 :: digestOf .sha1 (cmds.flatMap encodePayload)))

/-- Several engines (R124): a step of one is that engine's own step and leaves the others, and steps of
two different engines give the same in either order. (The list of engines is the model's, log entry
17.) -/
def Obligations.EnginesShareNothing : Prop :=
  (∀ (k : Nat) (es es' : List State), stepEngine k es = some (.next es') →
    es'.length = es.length ∧ (∀ j, j ≠ k → es'[j]? = es[j]?) ∧
    ∃ s t, es[k]? = some s ∧ step s = .next t ∧ es'[k]? = some t) ∧
  (∀ (j k : Nat) (es es1 es2 : List State), j ≠ k → stepEngine j es = some (.next es1) →
    stepEngine k es1 = some (.next es2) →
    ∃ es1', stepEngine k es = some (.next es1') ∧ stepEngine j es1' = some (.next es2))

/-- `toHexString` (R105): two characters for each byte, bits 7 to 4 first, from the lower-case
alphabet. -/
def Obligations.HexWritesTwoCharactersAByte : Prop :=
  ∀ bytes : List Byte, (toHexString bytes).toList.length = 2 * bytes.length ∧
    ∀ k, k < bytes.length →
      (toHexString bytes).toList.getD (2 * k) ' ' =
        "0123456789abcdef".toList.getD ((bytes.getD k 0).toNat / 16) ' ' ∧
      (toHexString bytes).toList.getD (2 * k + 1) ' ' =
        "0123456789abcdef".toList.getD ((bytes.getD k 0).toNat % 16) ' '

/-- Hex round trip (R106): the characters are of the alphabet, reading them back gives the bytes, and a
text of any length but 40 is no digest. -/
def Obligations.HexReadsBack : Prop :=
  (∀ bytes : List Byte, (∀ c ∈ toHexChars bytes, c ∈ hexAlphabet) ∧
    fromHexChars (toHexChars bytes) = some bytes ∧
    (bytes.length = 20 → readDigest (toHexChars bytes) = some bytes)) ∧
  ∀ cs : List Char, cs.length ≠ 40 → readDigest cs = none
end

