-- ==== Sys2Proof/Laws/State.lean ====
section
/-! SUPPORT. What each named operation does to each field of State: one lemma per field, so that no
later proof unfolds a record update. -/

namespace Sys2Proof.Machine

section respond
variable (st : Status) (out : List Byte) (s : State)

theorem emitTrace_eq : ∃ tr n, emitTrace s = { s with trace := s.trace ++ tr, traceCtr := n } ∧
    (s.traceEn = false → tr = []) := by
  unfold emitTrace
  split
  · exact ⟨_, _, rfl, by simp_all⟩
  · exact ⟨[], s.traceCtr, by simp, fun _ => rfl⟩

@[simp] theorem respond_phase : (respond st out s).phase = s.phase := by
  unfold respond emitTrace; split <;> rfl
@[simp] theorem respond_variant : (respond st out s).variant = s.variant := by
  unfold respond emitTrace; split <;> rfl
@[simp] theorem respond_h : (respond st out s).h = s.h := by
  unfold respond emitTrace; split <;> rfl
@[simp] theorem respond_totbits : (respond st out s).totbits = s.totbits := by
  unfold respond emitTrace; split <;> rfl
@[simp] theorem respond_buf : (respond st out s).buf = s.buf := by
  unfold respond emitTrace; split <;> rfl
@[simp] theorem respond_len : (respond st out s).len = s.len := by
  unfold respond emitTrace; split <;> rfl
@[simp] theorem respond_blkcnt : (respond st out s).blkcnt = s.blkcnt := by
  unfold respond emitTrace; split <;> rfl
@[simp] theorem respond_cmd : (respond st out s).cmd = s.cmd := by
  unfold respond emitTrace; split <;> rfl
@[simp] theorem respond_resp : (respond st out s).resp = s.resp ++ st.code :: out := by
  unfold respond emitTrace; split <;> rfl
@[simp] theorem respond_traceEn : (respond st out s).traceEn = s.traceEn := by
  unfold respond emitTrace; split <;> rfl
@[simp] theorem respond_freeCtr : (respond st out s).freeCtr = s.freeCtr := by
  unfold respond emitTrace; split <;> rfl
theorem respond_trace_prefix : s.trace <+: (respond st out s).trace := by
  unfold respond emitTrace; split
  · exact List.prefix_append _ _
  · exact List.prefix_refl _
theorem respond_trace_off (h : s.traceEn = false) : (respond st out s).trace = s.trace := by
  unfold respond emitTrace; simp [h]

/-- Everything a response does. -/
theorem responded_respond : Responded st.code out s (respond st out s) :=
  ⟨by simp, by simp, by simp, respond_trace_prefix st out s, respond_trace_off st out s⟩

theorem sameEngine_respond : SameEngine s (respond st out s) := by simp [SameEngine]
end respond

section raise
variable (st : Status) (s : State)
@[simp] theorem raise_phase : (raise st s).phase = s.phase := by simp [raise]
@[simp] theorem raise_variant : (raise st s).variant = s.variant := by simp [raise]
@[simp] theorem raise_h : (raise st s).h = s.h := by simp [raise]
@[simp] theorem raise_totbits : (raise st s).totbits = s.totbits := by simp [raise]
@[simp] theorem raise_buf : (raise st s).buf = s.buf := by simp [raise]
@[simp] theorem raise_len : (raise st s).len = s.len := by simp [raise]
@[simp] theorem raise_blkcnt : (raise st s).blkcnt = s.blkcnt := by simp [raise]
@[simp] theorem raise_cmd : (raise st s).cmd = s.cmd := by simp [raise]
@[simp] theorem raise_resp : (raise st s).resp = s.resp ++ [st.code] := by simp [raise]
@[simp] theorem raise_traceEn : (raise st s).traceEn = s.traceEn := by simp [raise]
@[simp] theorem raise_freeCtr : (raise st s).freeCtr = s.freeCtr := by simp [raise]

/-- Everything a fault does (60_exceptions.md R113). -/
theorem responded_raise : Responded st.code [] s (raise st s) := responded_respond st [] s
theorem sameEngine_raise : SameEngine s (raise st s) := sameEngine_respond st [] s
end raise

section construct
variable (v : Variant) (s : State)
@[simp] theorem construct_phase : (construct v s).phase = .accepting := rfl
@[simp] theorem construct_variant : (construct v s).variant = v := rfl
@[simp] theorem construct_h : (construct v s).h = initialH := rfl
@[simp] theorem construct_totbits : (construct v s).totbits = 0 := rfl
@[simp] theorem construct_buf : (construct v s).buf = s.buf := rfl
@[simp] theorem construct_len : (construct v s).len = 0 := rfl
@[simp] theorem construct_blkcnt : (construct v s).blkcnt = 0 := rfl
@[simp] theorem construct_cmd : (construct v s).cmd = s.cmd := rfl
@[simp] theorem construct_resp : (construct v s).resp = s.resp := rfl
@[simp] theorem construct_traceEn : (construct v s).traceEn = s.traceEn := rfl
@[simp] theorem construct_trace : (construct v s).trace = s.trace := rfl
@[simp] theorem construct_traceCtr : (construct v s).traceCtr = s.traceCtr := rfl
@[simp] theorem construct_freeCtr : (construct v s).freeCtr = s.freeCtr := rfl
end construct

section compress
variable (s : State)
@[simp] theorem compress_phase : (compress s).phase = s.phase := rfl
@[simp] theorem compress_variant : (compress s).variant = s.variant := rfl
@[simp] theorem compress_h : (compress s).h = compressFn s.variant s.h (Buf.readBytes s.buf 0 64) := rfl
@[simp] theorem compress_totbits : (compress s).totbits = s.totbits := rfl
@[simp] theorem compress_buf : (compress s).buf = s.buf := rfl
@[simp] theorem compress_len : (compress s).len = s.len := rfl
@[simp] theorem compress_blkcnt : (compress s).blkcnt = s.blkcnt + 1 := rfl
@[simp] theorem compress_cmd : (compress s).cmd = s.cmd := rfl
@[simp] theorem compress_resp : (compress s).resp = s.resp := rfl
@[simp] theorem compress_traceEn : (compress s).traceEn = s.traceEn := rfl
@[simp] theorem compress_trace : (compress s).trace = s.trace := rfl
@[simp] theorem compress_traceCtr : (compress s).traceCtr = s.traceCtr := rfl
@[simp] theorem compress_freeCtr : (compress s).freeCtr = s.freeCtr := rfl
end compress

section flush
variable (s : State)
@[simp] theorem flush_phase : (flush s).phase = s.phase := rfl
@[simp] theorem flush_variant : (flush s).variant = s.variant := rfl
@[simp] theorem flush_h : (flush s).h = compressFn s.variant s.h (Buf.readBytes s.buf 0 64) := rfl
@[simp] theorem flush_totbits : (flush s).totbits = s.totbits + 512 := rfl
@[simp] theorem flush_buf : (flush s).buf = s.buf := rfl
@[simp] theorem flush_len : (flush s).len = 0 := rfl
@[simp] theorem flush_blkcnt : (flush s).blkcnt = s.blkcnt + 1 := rfl
@[simp] theorem flush_cmd : (flush s).cmd = s.cmd := rfl
@[simp] theorem flush_resp : (flush s).resp = s.resp := rfl
@[simp] theorem flush_traceEn : (flush s).traceEn = s.traceEn := rfl
@[simp] theorem flush_trace : (flush s).trace = s.trace := rfl
@[simp] theorem flush_traceCtr : (flush s).traceCtr = s.traceCtr := rfl
@[simp] theorem flush_freeCtr : (flush s).freeCtr = s.freeCtr := rfl
end flush

section consume
variable (rest : List Byte) (s : State)
@[simp] theorem consume_phase : (consume rest s).phase = s.phase := rfl
@[simp] theorem consume_variant : (consume rest s).variant = s.variant := rfl
@[simp] theorem consume_h : (consume rest s).h = s.h := rfl
@[simp] theorem consume_totbits : (consume rest s).totbits = s.totbits := rfl
@[simp] theorem consume_buf : (consume rest s).buf = s.buf := rfl
@[simp] theorem consume_len : (consume rest s).len = s.len := rfl
@[simp] theorem consume_blkcnt : (consume rest s).blkcnt = s.blkcnt := rfl
@[simp] theorem consume_cmd : (consume rest s).cmd = rest := rfl
@[simp] theorem consume_resp : (consume rest s).resp = s.resp := rfl
@[simp] theorem consume_traceEn : (consume rest s).traceEn = s.traceEn := rfl
@[simp] theorem consume_trace : (consume rest s).trace = s.trace := rfl
@[simp] theorem consume_traceCtr : (consume rest s).traceCtr = s.traceCtr := rfl
@[simp] theorem consume_freeCtr : (consume rest s).freeCtr = s.freeCtr := rfl
end consume

@[simp] theorem accepting_iff (s : State) : accepting s = true ↔ s.phase = .accepting := by
  simp [accepting]

theorem accepting_false_iff (s : State) : accepting s = false ↔ s.phase ≠ .accepting := by
  simp [accepting]

end Sys2Proof.Machine
end

