-- ==== Sys2Proof/Laws/Buf.lean ====
section
/-! SUPPORT. The staging buffer: read after write, and the canonical form is kept. -/

namespace Sys2Proof.Machine

@[simp] theorem Buf.read_nil (j : Nat) : Buf.read [] j = Buf.unwritten := rfl

theorem Buf.read_cons (a : Nat) (b : Byte) (m : List Host.Cell) (j : Nat) :
    Buf.read ((a, b) :: m) j = if a = j then b else Buf.read m j := rfl

theorem Buf.read_erase_same (m : List Host.Cell) (j : Nat) :
    Buf.read (Buf.erase m j) j = Buf.unwritten := by
  induction m with
  | nil => rfl
  | cons c m ih =>
    obtain ⟨a, b⟩ := c
    by_cases h : a = j
    · simpa [Buf.erase, h] using ih
    · simpa [Buf.erase, h, Buf.read_cons] using ih

theorem Buf.read_erase_other (m : List Host.Cell) {j k : Nat} (hk : k ≠ j) :
    Buf.read (Buf.erase m j) k = Buf.read m k := by
  induction m with
  | nil => rfl
  | cons c m ih =>
    obtain ⟨a, b⟩ := c
    by_cases h : a = j
    · have : a ≠ k := fun e => hk (e ▸ h)
      simpa [Buf.erase, h, Buf.read_cons, h ▸ this] using ih
    · simp only [Buf.erase] at ih
      simp [Buf.erase, h, Buf.read_cons, ih]

theorem Buf.read_insert (m : List Host.Cell) (j : Nat) (x : Byte) (k : Nat)
    (h : Buf.read m j = Buf.unwritten ∨ k ≠ j) (hj : ∀ p ∈ m, p.1 ≠ j) :
    Buf.read (Buf.insert m j x) k = if k = j then x else Buf.read m k := by
  induction m with
  | nil => simp [Buf.insert, Buf.read_cons, eq_comm]
  | cons c m ih =>
    obtain ⟨a, b⟩ := c
    have haj : a ≠ j := hj (a, b) (by simp)
    have ih := ih (by
      rcases h with h | h
      · left; simpa [Buf.read_cons, haj] using h
      · right; exact h) (fun p hp => hj p (by simp [hp]))
    unfold Buf.insert
    split
    · simp [Buf.read_cons, eq_comm]
    · rw [Buf.read_cons, Buf.read_cons, ih]
      by_cases hak : a = k
      · subst hak; simp [haj]
      · simp [hak]

theorem Buf.not_mem_erase (m : List Host.Cell) (j : Nat) : ∀ p ∈ Buf.erase m j, p.1 ≠ j := by
  intro p hp
  simpa using (List.mem_filter.mp hp).2

/-- A read after a write: the written byte at its index, every other byte as before. -/
theorem Buf.read_write (m : List Host.Cell) (j : Nat) (x : Byte) (k : Nat) :
    Buf.read (Buf.write m j x) k = if k = j then x else Buf.read m k := by
  unfold Buf.write
  split
  · next hx =>
    split
    · next hk => subst hk; rw [Buf.read_erase_same, hx]
    · next hk => exact Buf.read_erase_other m hk
  · rw [Buf.read_insert _ _ _ _ (Or.inl (Buf.read_erase_same m j)) (Buf.not_mem_erase m j)]
    split
    · rfl
    · next hk => exact Buf.read_erase_other m hk

theorem Buf.mem_insert {m : List Host.Cell} {j : Nat} {x : Byte} {p : Host.Cell} :
    p ∈ Buf.insert m j x → p = (j, x) ∨ p ∈ m := by
  induction m with
  | nil => simp [Buf.insert]
  | cons c m ih =>
    unfold Buf.insert
    split
    · simp
    · simp only [List.mem_cons]
      rintro (h | h)
      · exact Or.inr (Or.inl h)
      · exact (ih h).imp_right Or.inr

theorem Buf.pairwise_insert {m : List Host.Cell} (j : Nat) (x : Byte)
    (h : m.Pairwise fun p q => p.1 < q.1) (hj : ∀ p ∈ m, p.1 ≠ j) :
    (Buf.insert m j x).Pairwise fun p q => p.1 < q.1 := by
  induction m with
  | nil => simp [Buf.insert]
  | cons c m ih =>
    obtain ⟨a, b⟩ := c
    obtain ⟨hlt, hm⟩ := List.pairwise_cons.mp h
    unfold Buf.insert
    split
    · next hja =>
      refine List.pairwise_cons.mpr ⟨fun p hp => ?_, h⟩
      rcases List.mem_cons.mp hp with rfl | hp
      · exact hja
      · exact Nat.lt_trans hja (hlt p hp)
    · next hja =>
      have haj : a ≠ j := hj (a, b) (by simp)
      refine List.pairwise_cons.mpr ⟨fun p hp => ?_, ih hm fun p hp => hj p (by simp [hp])⟩
      rcases Buf.mem_insert hp with rfl | hp
      · show a < j; omega
      · exact hlt p hp

/-- A write inside the buffer keeps the canonical form. -/
theorem Buf.wf_write {m : List Host.Cell} (h : Buf.wf m) {j : Nat} (hj : j < 64) (x : Byte) :
    Buf.wf (Buf.write m j x) := by
  obtain ⟨hp, hm⟩ := h
  have hpe : (Buf.erase m j).Pairwise fun p q => p.1 < q.1 := hp.filter _
  have hme : ∀ p ∈ Buf.erase m j, p.1 < 64 ∧ p.2 ≠ Buf.unwritten :=
    fun p hp => hm p (List.mem_filter.mp hp).1
  unfold Buf.write
  split
  · exact ⟨hpe, hme⟩
  · next hx =>
    refine ⟨Buf.pairwise_insert j x hpe (Buf.not_mem_erase m j), fun p hp => ?_⟩
    rcases Buf.mem_insert hp with rfl | hp
    · exact ⟨hj, hx⟩
    · exact hme p hp

/-- A run of writes inside the buffer keeps the canonical form. -/
theorem Buf.wf_writeBytes {bytes : List Byte} : ∀ {m : List Host.Cell} {j : Nat}, Buf.wf m →
    j + bytes.length ≤ 64 → Buf.wf (Buf.writeBytes m j bytes) := by
  induction bytes with
  | nil => intro m j h _; exact h
  | cons x xs ih =>
    intro m j h hj
    simp only [List.length_cons] at hj
    exact ih (Buf.wf_write h (by omega) x) (by omega)

/-- A read after a run of writes. -/
theorem Buf.read_writeBytes (bytes : List Byte) : ∀ (m : List Host.Cell) (j k : Nat),
    Buf.read (Buf.writeBytes m j bytes) k =
      if j ≤ k ∧ k < j + bytes.length then bytes.getD (k - j) 0 else Buf.read m k := by
  induction bytes with
  | nil => intro m j k; simp [Buf.writeBytes]
  | cons x xs ih =>
    intro m j k
    rw [Buf.writeBytes, ih, Buf.read_write]
    by_cases hk : k = j
    · subst hk
      simp
    · simp only [hk, if_false, List.length_cons]
      by_cases h1 : j + 1 ≤ k ∧ k < j + 1 + xs.length
      · have h2 : j ≤ k ∧ k < j + (xs.length + 1) := by omega
        have h3 : k - j = (k - (j + 1)) + 1 := by omega
        simp [h1, h2, h3]
      · have h2 : ¬ (j ≤ k ∧ k < j + (xs.length + 1)) := by omega
        rw [if_neg h1, if_neg h2]

@[simp] theorem Buf.length_readBytes (m : List Host.Cell) (j n : Nat) :
    (Buf.readBytes m j n).length = n := by simp [Buf.readBytes]

theorem Buf.getD_readBytes (m : List Host.Cell) (j n k : Nat) (hk : k < n) (d : Byte) :
    (Buf.readBytes m j n).getD k d = Buf.read m (j + k) := by
  simp [Buf.readBytes, List.getD_eq_getElem?_getD, hk]

/-- Two byte lists of one length are equal when every index holds the same byte. -/
theorem ext_getD {xs ys : List Byte} (hl : xs.length = ys.length)
    (h : ∀ k, k < xs.length → xs.getD k 0 = ys.getD k 0) : xs = ys := by
  refine List.ext_getElem hl fun k h1 h2 => ?_
  simpa [List.getD_eq_getElem?_getD, h1, h2] using h k h1

/-- The bytes of BUF from 0 on, by what each reads as. -/
theorem Buf.readBytes_eq {m : List Host.Cell} {n : Nat} {bytes : List Byte} (hl : bytes.length = n)
    (h : ∀ k, k < n → Buf.read m k = bytes.getD k 0) : Buf.readBytes m 0 n = bytes := by
  refine ext_getD (by simp [hl]) fun k hk => ?_
  rw [Buf.length_readBytes] at hk
  rw [Buf.getD_readBytes _ _ _ _ hk, Nat.zero_add, h k hk]

/-- Buffers that read alike are read alike in a run. -/
theorem Buf.readBytes_congr {m m' : List Host.Cell} {n : Nat}
    (h : ∀ k, k < n → Buf.read m k = Buf.read m' k) : Buf.readBytes m 0 n = Buf.readBytes m' 0 n := by
  refine Buf.readBytes_eq (by simp) fun k hk => ?_
  rw [Buf.getD_readBytes _ _ _ _ hk, Nat.zero_add, h k hk]

/-- What `bufWrite` does inside the buffer. -/
theorem bufWrite_ok {j : Nat} {bytes : List Byte} (s : State) (h : j + bytes.length ≤ 64) :
    bufWrite j bytes s = .ok { s with buf := Buf.writeBytes s.buf j bytes } := by
  simp [bufWrite, h]

/-- Everything `bufWrite` can do. -/
theorem bufWrite_cases (j : Nat) (bytes : List Byte) (s : State) :
    (j + bytes.length ≤ 64 ∧ bufWrite j bytes s = .ok { s with buf := Buf.writeBytes s.buf j bytes }) ∨
      (64 < j + bytes.length ∧ bufWrite j bytes s = .error (.bufferIndex j)) := by
  unfold bufWrite
  split
  · next h => exact Or.inl ⟨h, rfl⟩
  · next h => exact Or.inr ⟨by omega, rfl⟩

/-- The buffer operation of the engine keeps the canonical form. -/
theorem bufWrite_wf {j : Nat} {bytes : List Byte} {s t : State} (h : bufWrite j bytes s = .ok t)
    (hm : Buf.wf s.buf) : Buf.wf t.buf := by
  rcases bufWrite_cases j bytes s with ⟨hl, e⟩ | ⟨_, e⟩
  · rw [e] at h; injection h with h; subst h; exact Buf.wf_writeBytes hm hl
  · rw [e] at h; cases h

/-- BUF is in its canonical form after hardware reset. -/
theorem Buf.wf_reset : Buf.wf State.reset.buf := by decide

end Sys2Proof.Machine
end

