-- ==== Sys2Proof/Laws/Absorb.lean ====
section
/-! SUPPORT. What `absorb_byte` and a run of it do (41_absorb.md R69, R70). -/

namespace Sys2Proof.Machine

theorem toNat_len_succ (l : BitVec 7) (h : l.toNat < 64) : (l + 1).toNat = l.toNat + 1 := by
  rw [BitVec.toNat_add]; simp; omega

/-- The state with byte `x` at BUF[LEN] and LEN one more. -/
def storeByte (x : Byte) (s : State) : State :=
  { s with buf := Buf.write s.buf s.len.toNat x, len := s.len + 1 }

section storeByte
variable (x : Byte) (s : State)
@[simp] theorem storeByte_phase : (storeByte x s).phase = s.phase := rfl
@[simp] theorem storeByte_variant : (storeByte x s).variant = s.variant := rfl
@[simp] theorem storeByte_h : (storeByte x s).h = s.h := rfl
@[simp] theorem storeByte_totbits : (storeByte x s).totbits = s.totbits := rfl
@[simp] theorem storeByte_buf : (storeByte x s).buf = Buf.write s.buf s.len.toNat x := rfl
@[simp] theorem storeByte_len : (storeByte x s).len = s.len + 1 := rfl
@[simp] theorem storeByte_blkcnt : (storeByte x s).blkcnt = s.blkcnt := rfl
@[simp] theorem storeByte_cmd : (storeByte x s).cmd = s.cmd := rfl
@[simp] theorem storeByte_resp : (storeByte x s).resp = s.resp := rfl
@[simp] theorem storeByte_traceEn : (storeByte x s).traceEn = s.traceEn := rfl
@[simp] theorem storeByte_trace : (storeByte x s).trace = s.trace := rfl
@[simp] theorem storeByte_traceCtr : (storeByte x s).traceCtr = s.traceCtr := rfl
@[simp] theorem storeByte_freeCtr : (storeByte x s).freeCtr = s.freeCtr := rfl
end storeByte

/-- A byte that does not fill the buffer. -/
theorem absorbByte_store (x : Byte) (s : State) (h : s.len.toNat < 63) :
    absorbByte x s = .ok (storeByte x s) := by
  have hne : s.len + 1 ≠ 64 := by
    intro e
    have := congrArg BitVec.toNat e
    rw [toNat_len_succ _ (by omega)] at this
    simp at this; omega
  have hb := bufWrite_ok (j := s.len.toNat) (bytes := [x]) s (by simp; omega)
  simp only [absorbByte, hb, Buf.writeBytes, full, hne,
    decide_false, Bool.false_eq_true, if_false, storeByte]

/-- The byte that fills the buffer: it is flushed at once. -/
theorem absorbByte_flush (x : Byte) (s : State) (h : s.len.toNat = 63) :
    absorbByte x s = .ok (flush (storeByte x s)) := by
  have he : s.len + 1 = 64 := by
    apply BitVec.eq_of_toNat_eq
    rw [toNat_len_succ _ (by omega), h]; rfl
  have hb := bufWrite_ok (j := s.len.toNat) (bytes := [x]) s (by simp; omega)
  simp only [absorbByte, hb, Buf.writeBytes, full, he,
    decide_true, if_true, storeByte]

/-- No byte fits: the model's stop (log entry 9). -/
theorem absorbByte_fault (x : Byte) (s : State) (h : 64 ≤ s.len.toNat) :
    absorbByte x s = .error (.bufferIndex s.len.toNat) := by
  rcases bufWrite_cases s.len.toNat [x] s with ⟨h', _⟩ | ⟨_, e⟩
  · simp at h'; omega
  · simp only [absorbByte, e]

theorem absorbBytes_append (xs ys : List Byte) : ∀ s : State,
    absorbBytes (xs ++ ys) s =
      match absorbBytes xs s with
      | .error f => .error f
      | .ok t => absorbBytes ys t := by
  induction xs with
  | nil => intro s; rfl
  | cons x xs ih =>
    intro s
    simp only [List.cons_append, absorbBytes]
    cases absorbByte x s with
    | error f => rfl
    | ok t => exact ih t

/-- `t` is `s` with `data` absorbed: whole blocks in H, TOTBITS and BLKCNT, the rest in BUF, and
everything else as before. -/
structure Absorbed (data : List Byte) (s t : State) : Prop where
  phase : t.phase = s.phase
  variant : t.variant = s.variant
  cmd : t.cmd = s.cmd
  resp : t.resp = s.resp
  traceEn : t.traceEn = s.traceEn
  trace : t.trace = s.trace
  traceCtr : t.traceCtr = s.traceCtr
  freeCtr : t.freeCtr = s.freeCtr
  len : t.len.toNat = (s.len.toNat + data.length) % 64
  totbits : t.totbits = s.totbits + BitVec.ofNat 64 (512 * ((s.len.toNat + data.length) / 64))
  blkcnt : t.blkcnt = s.blkcnt + BitVec.ofNat Config.blkcntWidth ((s.len.toNat + data.length) / 64)
  h : t.h = hashBlocks s.variant ((s.len.toNat + data.length) / 64)
    (Buf.readBytes s.buf 0 s.len.toNat ++ data) s.h
  held : Buf.readBytes t.buf 0 ((s.len.toNat + data.length) % 64) =
    (Buf.readBytes s.buf 0 s.len.toNat ++ data).drop (64 * ((s.len.toNat + data.length) / 64))
  stored : ∀ k, k < data.length → data.length ≤ k + 64 →
    Buf.read t.buf ((s.len.toNat + k) % 64) = data.getD k 0
  kept : ∀ a, (∀ k, k < data.length → (s.len.toNat + k) % 64 ≠ a) →
    Buf.read t.buf a = Buf.read s.buf a
  wf : Buf.wf s.buf → Buf.wf t.buf

theorem readBytes_write_end (m : List Host.Cell) (n : Nat) (x : Byte) :
    Buf.readBytes (Buf.write m n x) 0 (n + 1) = Buf.readBytes m 0 n ++ [x] := by
  refine Buf.readBytes_eq (by simp) fun k hk => ?_
  rw [Buf.read_write]
  by_cases h : k = n
  · subst h; simp [List.getD_eq_getElem?_getD]
  · rw [if_neg h, List.getD_append _ _ _ _ (by simp; omega),
      Buf.getD_readBytes _ _ _ _ (by omega), Nat.zero_add]

/-- Everything a run of `absorb_byte` does from a state with room in the buffer (R70). -/
theorem absorbBytes_ok (data : List Byte) : ∀ s : State, s.len.toNat < 64 →
    ∃ t, absorbBytes data s = .ok t ∧ Absorbed data s t := by
  induction data with
  | nil =>
    intro s hs
    have h0 : s.len.toNat / 64 = 0 := by omega
    have h1 : s.len.toNat % 64 = s.len.toNat := by omega
    exact ⟨s, rfl, { phase := rfl, variant := rfl, cmd := rfl, resp := rfl, traceEn := rfl,
                     trace := rfl, traceCtr := rfl, freeCtr := rfl,
                     len := by simp [h1], totbits := by simp [h0], blkcnt := by simp [h0],
                     h := by simp [h0, hashBlocks], held := by simp [h0, h1],
                     stored := by simp, kept := fun _ _ => rfl, wf := id }⟩
  | cons x xs ih =>
    intro s hs
    by_cases hl : s.len.toNat = 63
    · have hlen : (flush (storeByte x s)).len.toNat = 0 := by simp
      obtain ⟨t, ht, A⟩ := ih (flush (storeByte x s)) (by simp)
      refine ⟨t, by simp only [absorbBytes, absorbByte_flush x s hl]; exact ht, ?_⟩
      have e : s.len.toNat + (x :: xs).length = 64 + xs.length := by simp [hl]; omega
      have ed : (64 + xs.length) / 64 = xs.length / 64 + 1 := by omega
      have em : (64 + xs.length) % 64 = xs.length % 64 := by omega
      have hread : Buf.readBytes (storeByte x s).buf 0 64 = Buf.readBytes s.buf 0 s.len.toNat ++ [x] := by
        have := readBytes_write_end s.buf s.len.toNat x
        rw [show s.len.toNat + 1 = 64 by omega] at this
        simpa using this
      have hsplit : Buf.readBytes s.buf 0 s.len.toNat ++ x :: xs =
          (Buf.readBytes s.buf 0 s.len.toNat ++ [x]) ++ xs := by simp
      have h64 : (Buf.readBytes s.buf 0 s.len.toNat ++ [x]).length = 64 := by simp [hl]
      exact
        { phase := by simpa using A.phase
          variant := by simpa using A.variant
          cmd := by simpa using A.cmd
          resp := by simpa using A.resp
          traceEn := by simpa using A.traceEn
          trace := by simpa using A.trace
          traceCtr := by simpa using A.traceCtr
          freeCtr := by simpa using A.freeCtr
          len := by rw [A.len, hlen, e, em, Nat.zero_add]
          totbits := by
            rw [A.totbits, hlen, e, ed, Nat.zero_add]
            rw [flush_totbits, storeByte_totbits, Nat.mul_add, Nat.add_comm (512 * _), BitVec.ofNat_add,
              ← BitVec.add_assoc]
            rfl
          blkcnt := by
            rw [A.blkcnt, hlen, e, ed, Nat.zero_add]
            rw [flush_blkcnt, storeByte_blkcnt, Nat.add_comm (xs.length / 64), BitVec.ofNat_add,
              ← BitVec.add_assoc]
            rfl
          h := by
            rw [A.h, hlen, e, ed, hsplit, Nat.zero_add, hashBlocks, List.drop_left' h64,
              List.take_left' h64, flush_h, hread]
            simp [Buf.readBytes]
          held := by
            have hh := A.held
            rw [hlen, Nat.zero_add] at hh
            rw [e, em, ed, hsplit, hh, show 64 * (xs.length / 64 + 1) = 64 + 64 * (xs.length / 64) by omega,
              ← List.drop_drop, List.drop_left' h64]
            simp [Buf.readBytes]
          stored := by
            intro k hk hk'
            simp only [List.length_cons] at hk hk'
            cases k with
            | zero =>
              have := A.kept 63 (fun k hk2 => by rw [hlen]; omega)
              rw [show (s.len.toNat + 0) % 64 = 63 by omega, this]
              simp [Buf.read_write, hl]
            | succ k =>
              have := A.stored k (by omega) (by omega)
              rw [hlen] at this
              rw [show (s.len.toNat + (k + 1)) % 64 = (0 + k) % 64 by omega, this]
              simp
          kept := by
            intro a ha
            have h63 : (63 : Nat) ≠ a := by simpa [hl] using ha 0 (by simp)
            rw [A.kept a fun k hk => by
              have := ha (k + 1) (by simp; omega)
              rw [hlen]; omega]
            simp [Buf.read_write, hl, Ne.symm h63]
          wf := fun hwf => A.wf (by simpa using Buf.wf_write hwf (by omega) x) }
    · have hlt : s.len.toNat < 63 := by omega
      have hlen : (storeByte x s).len.toNat = s.len.toNat + 1 := toNat_len_succ _ (by omega)
      obtain ⟨t, ht, A⟩ := ih (storeByte x s) (by omega)
      refine ⟨t, by simp only [absorbBytes, absorbByte_store x s hlt]; exact ht, ?_⟩
      have e : s.len.toNat + 1 + xs.length = s.len.toNat + (x :: xs).length := by simp; omega
      have hsplit : Buf.readBytes (storeByte x s).buf 0 (s.len.toNat + 1) ++ xs =
          Buf.readBytes s.buf 0 s.len.toNat ++ x :: xs := by
        rw [storeByte_buf, readBytes_write_end]; simp
      exact
        { phase := by simpa using A.phase
          variant := by simpa using A.variant
          cmd := by simpa using A.cmd
          resp := by simpa using A.resp
          traceEn := by simpa using A.traceEn
          trace := by simpa using A.trace
          traceCtr := by simpa using A.traceCtr
          freeCtr := by simpa using A.freeCtr
          len := by rw [A.len, hlen, e]
          totbits := by rw [A.totbits, hlen, e]; rfl
          blkcnt := by rw [A.blkcnt, hlen, e]; rfl
          h := by rw [A.h, hlen, e, hsplit]; rfl
          held := by rw [← e, ← hlen, A.held, hlen, hsplit]
          stored := by
            intro k hk hk'
            simp only [List.length_cons] at hk hk'
            cases k with
            | zero =>
              have := A.kept s.len.toNat (fun k hk2 => by rw [hlen]; omega)
              rw [show (s.len.toNat + 0) % 64 = s.len.toNat by omega, this]
              simp [Buf.read_write]
            | succ k =>
              have := A.stored k (by omega) (by omega)
              rw [hlen] at this
              rw [show (s.len.toNat + (k + 1)) % 64 = (s.len.toNat + 1 + k) % 64 by omega, this]
              simp
          kept := by
            intro a ha
            have h0 : s.len.toNat ≠ a := by
              have := ha 0 (by simp); omega
            rw [A.kept a fun k hk => by
              have := ha (k + 1) (by simp; omega)
              rw [hlen]; omega]
            simp [Buf.read_write, Ne.symm h0]
          wf := fun hwf => A.wf (by simpa using Buf.wf_write hwf (by omega) x) }

/-- ABSORB in phase Accepting with room in the buffer. -/
theorem execAbsorb_accepting (data : List Byte) (s : State) (hp : s.phase = .accepting)
    (hl : s.len.toNat < 64) :
    ∃ t, execAbsorb data s = .next (respond .ok [] t) ∧ Absorbed data s t := by
  obtain ⟨t, ht, A⟩ := absorbBytes_ok data s hl
  exact ⟨t, by simp only [execAbsorb, (accepting_iff s).mpr hp, if_true, ht], A⟩

/-- ABSORB outside phase Accepting. -/
theorem execAbsorb_invalidState (data : List Byte) (s : State) (hp : s.phase ≠ .accepting) :
    execAbsorb data s = .next (raise .invalidState s) := by
  simp [execAbsorb, (accepting_false_iff s).mpr hp]

/-- ABSORB.NULL, every case. -/
theorem execAbsorbNull_eq (cnt : BitVec 27) (s : State) : execAbsorbNull cnt s =
    .next (if s.phase = .accepting then
      if cnt = 0 then respond .ok [] s else raise .invalidArgument s
      else raise .invalidState s) := by
  unfold execAbsorbNull accepting
  by_cases h : s.phase = .accepting
  · by_cases hc : cnt = 0
    · simp only [h, decide_true, if_true, hc]
    · simp only [h, decide_true, if_true, if_neg hc]
  · simp [h]

end Sys2Proof.Machine
end

