-- ==== Sys2Proof/Laws/Compress.lean ====
section
/-! SUPPORT. The compression function: the parse, the schedule's recurrence and the round sequence
(42_compress.md). -/

namespace Sys2Proof.Machine

/-- Parse (R79): every group of four bytes gives one word. -/
theorem length_parse : ∀ (n : Nat) (bs : List Byte), bs.length = 4 * n → (parse bs).length = n
  | 0, bs, h => by
    have : bs = [] := List.length_eq_zero_iff.mp (by omega)
    simp [this, parse]
  | n + 1, b0 :: b1 :: b2 :: b3 :: bs, h => by
    simp only [parse, List.length_cons] at *
    rw [length_parse n bs (by omega)]
  | n + 1, [], h => by simp at h
  | n + 1, [_], h => by simp at h; omega
  | n + 1, [_, _], h => by simp at h; omega
  | n + 1, [_, _, _], h => by simp at h; omega

/-- Parse (R79): word `t` is made of bytes `4t` to `4t+3`. -/
theorem getD_parse : ∀ (t : Nat) (bs : List Byte), 4 * t + 4 ≤ bs.length →
    (parse bs).getD t 0 =
      be32 (bs.getD (4 * t) 0) (bs.getD (4 * t + 1) 0) (bs.getD (4 * t + 2) 0) (bs.getD (4 * t + 3) 0)
  | 0, b0 :: b1 :: b2 :: b3 :: bs, _ => by simp [parse]
  | t + 1, b0 :: b1 :: b2 :: b3 :: bs, h => by
    simp only [List.length_cons] at h
    have := getD_parse t bs (by omega)
    simp only [parse, List.getD_cons_succ]
    rw [this]
    simp only [show 4 * (t + 1) = 4 * t + 1 + 1 + 1 + 1 by omega, List.getD_cons_succ]
  | _, [], h => by simp at h
  | _, [_], h => by simp at h
  | _, [_, _], h => by simp at h
  | _, [_, _, _], h => by simp at h

@[simp] theorem length_expandFrom (r n : Nat) (back : List Word) :
    (expandFrom r n back).length = n + back.length := by
  induction n generalizing back with
  | zero => simp [expandFrom]
  | succ n ih => simp [expandFrom, ih]; omega

/-- The words already there stay, at their distance from the end. -/
theorem expandFrom_suffix (r n : Nat) (back : List Word) : back <:+ expandFrom r n back := by
  induction n generalizing back with
  | zero => exact List.suffix_refl _
  | succ n ih => exact (List.suffix_cons _ _).trans (ih _)

/-- The schedule grows from its first words on. -/
theorem prefix_schedule (r : Nat) (words : List Word) : words <+: schedule r words := by
  have := List.reverse_prefix.mpr (expandFrom_suffix r 64 words.reverse)
  simpa [schedule] using this

/-- Every word on top of the first ones comes from the words below it by `expandWord`. -/
theorem getD_expandFrom (r n : Nat) (back : List Word) : ∀ k, k < n →
    (expandFrom r n back).getD k 0 = expandWord r ((expandFrom r n back).drop (k + 1)) := by
  induction n generalizing back with
  | zero => intro k hk; omega
  | succ n ih =>
    intro k hk
    by_cases hkn : k < n
    · exact ih (expandWord r back :: back) k hkn
    · have hk : k = n := by omega
      subst hk
      obtain ⟨front, hf⟩ := expandFrom_suffix r k (expandWord r back :: back)
      have hl : front.length = k := by
        have := congrArg List.length hf
        simp at this; omega
      subst hl
      simp [expandFrom, ← hf, List.getD_eq_getElem?_getD]

/-- The `getD` of a reversed list. -/
theorem getD_reverse (xs : List Word) (k : Nat) (h : k < xs.length) :
    xs.reverse.getD k 0 = xs.getD (xs.length - 1 - k) 0 := by
  simp [List.getD_eq_getElem?_getD, List.getElem?_reverse h]

/-- The recurrence of the schedule (R83). -/
theorem getD_schedule (r : Nat) (words : List Word) (hw : words.length = 16) (i : Nat) (hi : 16 ≤ i)
    (hi' : i < 80) : (schedule r words).getD i 0 =
      rotl32 ((schedule r words).getD (i - 3) 0 ^^^ (schedule r words).getD (i - 8) 0 ^^^
        (schedule r words).getD (i - 14) 0 ^^^ (schedule r words).getD (i - 16) 0) r := by
  have hlen : (expandFrom r 64 words.reverse).length = 80 := by simp [hw]
  have hget : ∀ d, d ≤ i → (schedule r words).getD (i - d) 0 =
      (expandFrom r 64 words.reverse).getD (79 - i + d) 0 := by
    intro d hd
    rw [schedule, getD_reverse _ _ (by omega), hlen]
    congr 1; omega
  have hdrop : ∀ d, ((expandFrom r 64 words.reverse).drop (79 - i + 1)).getD d 0 =
      (expandFrom r 64 words.reverse).getD (79 - i + (d + 1)) 0 := by
    intro d
    simp only [List.getD_eq_getElem?_getD, List.getElem?_drop]
    congr 2; omega
  have h0 : (schedule r words).getD i 0 =
      expandWord r ((expandFrom r 64 words.reverse).drop (79 - i + 1)) := by
    have h := hget 0 (by omega)
    simp only [Nat.sub_zero, Nat.add_zero] at h
    rw [h, getD_expandFrom _ _ _ _ (by omega)]
  rw [h0, hget 3 (by omega), hget 8 (by omega), hget 14 (by omega), hget 16 (by omega)]
  simp only [expandWord, xor32, hdrop]

@[simp] theorem length_schedule (r : Nat) (words : List Word) :
    (schedule r words).length = 64 + words.length := by simp [schedule]

/-- The rounds of a list of schedule words, one after the other (R89): after round `k` the working
variables are those before it put through `roundStep`. -/
theorem roundsFrom_append (i : Nat) (xs ys : List Word) (v : Working) :
    roundsFrom i (xs ++ ys) v = roundsFrom (i + xs.length) ys (roundsFrom i xs v) := by
  induction xs generalizing i v with
  | nil => rfl
  | cons x xs ih => simp [roundsFrom, ih, Nat.add_assoc, Nat.add_comm 1]

/-- A rotation of a word made of one repeated bit leaves it as it is. -/
theorem rotl32_zero_or_ones (x : Word) (n : Nat) (hn : n < 32) (h : x = 0 ∨ x = 0xFFFFFFFF) :
    rotl32 x n = x := by
  rcases h with rfl | rfl <;> interval_cases n <;> decide

/-- The rotation primitive is left rotation (R10). -/
theorem rotl32_eq_rotateLeft (x : Word) (n : Nat) (hn : n < 32) : rotl32 x n = BitVec.rotateLeft x n := by
  unfold rotl32
  split
  · next h =>
    subst h
    apply BitVec.eq_of_getLsbD_eq
    intro i hi
    simp [BitVec.rotateLeft, BitVec.rotateLeftAux]
  · next h =>
    rw [BitVec.rotateLeft_eq_rotateLeftAux_of_lt hn, BitVec.rotateLeftAux]
    apply BitVec.add_eq_or_of_and_eq_zero
    apply BitVec.eq_of_getLsbD_eq
    intro i hi
    simp only [BitVec.getLsbD_and, BitVec.getLsbD_shiftLeft, BitVec.getLsbD_ushiftRight]
    by_cases hin : i < n
    · simp [hin]
    · have : x.getLsbD (32 - n + i) = false := BitVec.getLsbD_of_ge _ _ (by omega)
      simp [this]

end Sys2Proof.Machine
end

