-- ==== Sys2Proof/Laws/Decode.lean ====
section
/-! SUPPORT. The header and its bytes: big-endian order loses nothing, and each field of an encoded
header reads back. -/

namespace Sys2Proof

/-- A word sent as four bytes is read back as the word (00_scope.md R10). -/
theorem be32_of_word (x : Word) :
    Machine.be32 (x.extractLsb' 24 8) (x.extractLsb' 16 8) (x.extractLsb' 8 8) (x.extractLsb' 0 8) = x := by
  apply BitVec.eq_of_getLsbD_eq
  intro i hi
  simp only [Machine.be32, BitVec.getLsbD_append, BitVec.getLsbD_extractLsb']
  by_cases h1 : i < 8
  · simp [h1]
  · by_cases h2 : i < 16
    · simp [h1, show i - 8 < 8 by omega, show 8 + (i - 8) = i by omega]
    · by_cases h3 : i < 24
      · simp [h1, show ¬ i - 8 < 8 by omega, show i - 8 - 8 < 8 by omega,
          show 16 + (i - 8 - 8) = i by omega]
      · simp [h1, show ¬ i - 8 < 8 by omega, show ¬ i - 8 - 8 < 8 by omega,
          show i - 8 - 8 - 8 < 8 by omega, show 24 + (i - 8 - 8 - 8) = i by omega]

/-- Four bytes read as a word are sent as the same four bytes. -/
theorem bytesBe32_be32 (b0 b1 b2 b3 : Byte) :
    Machine.bytesBe32 (Machine.be32 b0 b1 b2 b3) = [b0, b1, b2, b3] := by
  have aux : ∀ (lo : Nat) (y : Byte),
      (∀ i, i < 8 → (Machine.be32 b0 b1 b2 b3).getLsbD (lo + i) = y.getLsbD i) →
      (Machine.be32 b0 b1 b2 b3).extractLsb' lo 8 = y := by
    intro lo y h
    apply BitVec.eq_of_getLsbD_eq
    intro i hi
    simp [hi, h i hi]
  simp only [Machine.bytesBe32]
  rw [aux 24 b0, aux 16 b1, aux 8 b2, aux 0 b3]
  all_goals
    intro i hi
    simp only [Machine.be32, BitVec.getLsbD_append]
  · simp [hi]
  · simp [show ¬ 8 + i < 8 by omega, show 8 + i - 8 = i by omega, hi]
  · simp [show ¬ 16 + i < 8 by omega, show ¬ 16 + i - 8 < 8 by omega,
      show 16 + i - 8 - 8 = i by omega, hi]
  · simp [show ¬ 24 + i < 8 by omega, show ¬ 24 + i - 8 < 8 by omega,
      show ¬ 24 + i - 8 - 8 < 8 by omega, show 24 + i - 8 - 8 - 8 = i by omega]

/-- The number four bytes stand for, the first the most significant (R10). -/
theorem toNat_be32 (b0 b1 b2 b3 : Byte) :
    (Machine.be32 b0 b1 b2 b3).toNat =
      b0.toNat * 2 ^ 24 + b1.toNat * 2 ^ 16 + b2.toNat * 2 ^ 8 + b3.toNat := by
  simp only [Machine.be32, BitVec.toNat_append]
  have h1 := b1.isLt
  have h2 := b2.isLt
  have h3 := b3.isLt
  rw [← Nat.shiftLeft_add_eq_or_of_lt h1, ← Nat.shiftLeft_add_eq_or_of_lt h2,
    ← Nat.shiftLeft_add_eq_or_of_lt h3]
  simp only [Nat.shiftLeft_eq]
  omega

/-- The fields of a header as numbers (30_encoding.md R46, R50). -/
theorem toNat_headerOpc (hd : Word) : (Machine.headerOpc hd).toNat = hd.toNat / 2 ^ 28 := by
  have := hd.isLt
  simp only [Machine.headerOpc, BitVec.extractLsb'_toNat, Nat.shiftRight_eq_div_pow]
  omega
theorem toNat_headerV (hd : Word) : (Machine.headerV hd).toNat = hd.toNat % 2 := by
  simp [Machine.headerV, BitVec.extractLsb'_toNat]
theorem toNat_headerP (hd : Word) : (Machine.headerP hd).toNat = hd.toNat / 2 ^ 27 % 2 := by
  simp [Machine.headerP, BitVec.extractLsb'_toNat, Nat.shiftRight_eq_div_pow]
theorem toNat_headerCnt (hd : Word) : (Machine.headerCnt hd).toNat = hd.toNat % 2 ^ 27 := by
  simp [Machine.headerCnt, BitVec.extractLsb'_toNat]
theorem toNat_headerZeroV (hd : Word) :
    (Machine.headerZeroV hd).toNat = hd.toNat / 2 % 2 ^ 27 := by
  simp [Machine.headerZeroV, BitVec.extractLsb'_toNat, Nat.shiftRight_eq_div_pow]
theorem toNat_headerZeroN (hd : Word) : (Machine.headerZeroN hd).toNat = hd.toNat % 2 ^ 28 := by
  simp [Machine.headerZeroN, BitVec.extractLsb'_toNat]

/-- A bit vector is the one its number gives. -/
theorem eq_ofNat_of_toNat {n k : Nat} {x : BitVec n} (h : x.toNat = k) : x = BitVec.ofNat n k := by
  subst h; simp

/-- The decoder's tests on a header, as tests on its number. -/
theorem headerOpc_eq_one (hd : Word) : Machine.headerOpc hd = 0b0001 ↔ hd.toNat / 2 ^ 28 = 1 := by
  rw [← toNat_headerOpc]; exact ⟨fun e => by rw [e]; rfl, fun e => eq_ofNat_of_toNat e⟩
theorem headerOpc_eq_two (hd : Word) : Machine.headerOpc hd = 0b0010 ↔ hd.toNat / 2 ^ 28 = 2 := by
  rw [← toNat_headerOpc]; exact ⟨fun e => by rw [e]; rfl, fun e => eq_ofNat_of_toNat e⟩
theorem headerOpc_eq_three (hd : Word) : Machine.headerOpc hd = 0b0011 ↔ hd.toNat / 2 ^ 28 = 3 := by
  rw [← toNat_headerOpc]; exact ⟨fun e => by rw [e]; rfl, fun e => eq_ofNat_of_toNat e⟩
theorem headerV_eq_zero (hd : Word) : Machine.headerV hd = 0 ↔ hd.toNat % 2 = 0 := by
  rw [← toNat_headerV]; exact ⟨fun e => by rw [e]; rfl, fun e => eq_ofNat_of_toNat e⟩
theorem headerP_eq_one (hd : Word) : Machine.headerP hd = 1 ↔ hd.toNat / 2 ^ 27 % 2 = 1 := by
  rw [← toNat_headerP]; exact ⟨fun e => by rw [e]; rfl, fun e => eq_ofNat_of_toNat e⟩
theorem headerZeroV_eq_zero (hd : Word) :
    Machine.headerZeroV hd = 0 ↔ hd.toNat / 2 % 2 ^ 27 = 0 := by
  rw [← toNat_headerZeroV]; exact ⟨fun e => by rw [e]; rfl, fun e => eq_ofNat_of_toNat e⟩
theorem headerZeroN_eq_zero (hd : Word) : Machine.headerZeroN hd = 0 ↔ hd.toNat % 2 ^ 28 = 0 := by
  rw [← toNat_headerZeroN]; exact ⟨fun e => by rw [e]; rfl, fun e => eq_ofNat_of_toNat e⟩

/-- The encoded header of each command as a number (R47 to R49). -/
theorem toNat_encodeHeader_absorb (data : List Byte) (h : data.length < 2 ^ 27) :
    (encodeHeader (.absorb data)).toNat = 0x28000000 + data.length := by
  simp only [encodeHeader, BitVec.toNat_append, BitVec.toNat_ofNat]
  rw [← Nat.shiftLeft_add_eq_or_of_lt (Nat.mod_lt _ (by decide)), Nat.mod_eq_of_lt h]
  simp [Nat.shiftLeft_eq]
theorem toNat_encodeHeader_absorbNull (cnt : BitVec 27) :
    (encodeHeader (.absorbNull cnt)).toNat = 0x20000000 + cnt.toNat := by
  simp only [encodeHeader, BitVec.toNat_append]
  rw [← Nat.shiftLeft_add_eq_or_of_lt cnt.isLt]
  simp [Nat.shiftLeft_eq]

/-- The front of a stream that begins with a word's four bytes. -/
theorem decode_bytesBe32 (hd : Word) (rest : List Byte) :
    decode (Machine.bytesBe32 hd ++ rest) = decodeHeader hd rest := by
  simp only [Machine.bytesBe32, List.cons_append, List.nil_append, decode]
  rw [be32_of_word]

/-- Everything the decoder can read: less than a header, or a header and what follows it. -/
theorem decode_cases (bytes : List Byte) :
    (∃ w, decode bytes = .incomplete w ∧ w ≠ .payload ∧ bytes.length < 4) ∨
      ∃ b0 b1 b2 b3 rest, bytes = b0 :: b1 :: b2 :: b3 :: rest ∧
        decode bytes = decodeHeader (Machine.be32 b0 b1 b2 b3) rest := by
  match bytes with
  | [] => exact .inl ⟨_, rfl, by decide, by simp⟩
  | [_] => exact .inl ⟨_, rfl, by decide, by simp⟩
  | [_, _] => exact .inl ⟨_, rfl, by decide, by simp⟩
  | [_, _, _] => exact .inl ⟨_, rfl, by decide, by simp⟩
  | b0 :: b1 :: b2 :: b3 :: rest => exact .inr ⟨_, _, _, _, _, rfl, rfl⟩

@[simp] theorem length_bytesBe32 (x : Word) : (Machine.bytesBe32 x).length = 4 := rfl
@[simp] theorem length_bytesBe64 (x : Word64) : (Machine.bytesBe64 x).length = 8 := rfl

end Sys2Proof
end

