-- ==== Sys2Proof/Laws/Finalize.lean ====
section
/-! SUPPORT. What FINAL does, in the closed form of the padded tail (43_finalize.md R101). -/

namespace Sys2Proof.Machine

/-- `t` is `s` after FINAL's padding with `h'` in H, `block` in BUF and `n` compressions. -/
structure Padded (n : Nat) (h' : Regs) (block : List Byte) (s t : State) : Prop where
  phase : t.phase = .finalized
  variant : t.variant = s.variant
  cmd : t.cmd = s.cmd
  resp : t.resp = s.resp
  traceEn : t.traceEn = s.traceEn
  trace : t.trace = s.trace
  traceCtr : t.traceCtr = s.traceCtr
  freeCtr : t.freeCtr = s.freeCtr + 1
  len : t.len = BitVec.ofNat 7 (Config.lenAfterFinal s.freeCtr).val
  totbits : t.totbits = s.totbits + BitVec.ofNat 64 (8 * s.len.toNat)
  blkcnt : t.blkcnt = s.blkcnt + BitVec.ofNat Config.blkcntWidth n
  h : t.h = h'
  held : Buf.readBytes t.buf 0 64 = block
  beyond : ∀ a, 64 ≤ a → Buf.read t.buf a = Buf.read s.buf a
  wf : Buf.wf s.buf → Buf.wf t.buf

@[simp] theorem length_partialBlock (s : State) : (partialBlock s).length = s.len.toNat := by
  simp [partialBlock]

/-- The state after steps 1 and 2 (R94, R95). -/
def bitAppended (s : State) : State :=
  { s with
    totbits := messageBits s
    buf := Buf.write s.buf s.len.toNat 0x80
    len := s.len + 1 }

theorem appendBit_ok (s : State) (h : s.len.toNat < 64) :
    appendBit (countPartial s) = .ok (bitAppended s) := by
  have hb := bufWrite_ok (j := s.len.toNat) (bytes := [0x80]) (countPartial s) (by simp; omega)
  simp only [appendBit, show (countPartial s).len = s.len from rfl, hb]
  rfl

theorem appendBit_fault (s : State) (h : 64 ≤ s.len.toNat) :
    appendBit (countPartial s) = .error (.bufferIndex s.len.toNat) := by
  rcases bufWrite_cases s.len.toNat [0x80] (countPartial s) with ⟨h', _⟩ | ⟨_, e⟩
  · simp at h'; omega
  · simp only [appendBit, show (countPartial s).len = s.len from rfl, e]

/-- The buffer with the zero bytes of steps 3 or 4 up to `top`, and the rest. -/
theorem bitAppended_len (s : State) (h : s.len.toNat < 64) :
    (bitAppended s).len.toNat = s.len.toNat + 1 := toNat_len_succ s.len h

theorem spill_no (s : State) (h : s.len.toNat < 56) : spill (bitAppended s) = .ok (bitAppended s) := by
  have hl := bitAppended_len s (by omega)
  simp only [spill, twoBlock, hl, show ¬ 56 < s.len.toNat + 1 by omega, decide_false,
    Bool.false_eq_true, if_false]

/-- The state after step 3 when the length does not fit (R96), before its compression. -/
def spilled (s : State) : State :=
  { bitAppended s with
    buf := Buf.writeBytes (Buf.write s.buf s.len.toNat 0x80) (s.len.toNat + 1)
      (List.replicate (64 - (s.len.toNat + 1)) 0) }

/-- The state after step 3 when the length does not fit (R96). -/
def spilledNext (s : State) : State := { compress (spilled s) with len := 0 }

theorem spill_yes (s : State) (h : s.len.toNat < 64) (h56 : 56 ≤ s.len.toNat) :
    spill (bitAppended s) = .ok (spilledNext s) := by
  have hl := bitAppended_len s h
  have hb := bufWrite_ok (j := s.len.toNat + 1) (bytes := List.replicate (64 - (s.len.toNat + 1)) 0)
    (bitAppended s) (by simp; omega)
  have e : ({ bitAppended s with
      buf := Buf.writeBytes (bitAppended s).buf (s.len.toNat + 1)
        (List.replicate (64 - (s.len.toNat + 1)) 0) } : State) = spilled s := rfl
  rw [e] at hb
  simp only [spill, twoBlock, hl, show 56 < s.len.toNat + 1 by omega, decide_true, if_true, hb,
    spilledNext]

/-- The buffer after steps 4 and 5 (R97, R98), from a buffer with `n` bytes in use. -/
def lastBuf (m : List Host.Cell) (n : Nat) (bits : Word64) : List Host.Cell :=
  Buf.writeBytes (Buf.writeBytes m n (List.replicate (56 - n) 0)) 56 (bytesBe64 bits)

/-- Steps 4 and 5 (R97, R98). -/
theorem tail_ok (s : State) (h : s.len.toNat ≤ 56) : ∃ s4, zeroFill s = .ok s4 ∧
    writeLength s4 = .ok { s with buf := lastBuf s.buf s.len.toNat s.totbits } := by
  have hb := bufWrite_ok (j := s.len.toNat) (bytes := List.replicate (56 - s.len.toNat) 0) s
    (by simp; omega)
  refine ⟨_, hb, ?_⟩
  have hc := bufWrite_ok (j := 56) (bytes := bytesBe64 s.totbits)
    { s with buf := Buf.writeBytes s.buf s.len.toNat (List.replicate (56 - s.len.toNat) 0) } (by simp [bytesBe64])
  exact hc

/-- The bytes of the last block: `n` bytes in use, zeros, the length. -/
theorem readBytes_lastBuf (m : List Host.Cell) (n : Nat) (hn : n ≤ 56) (bits : Word64) :
    Buf.readBytes (lastBuf m n bits) 0 64 =
      Buf.readBytes m 0 n ++ (List.replicate (56 - n) 0 ++ bytesBe64 bits) := by
  have h8 : (bytesBe64 bits).length = 8 := rfl
  refine Buf.readBytes_eq (by simp [h8]; omega) fun k hk => ?_
  rw [lastBuf, Buf.read_writeBytes, Buf.read_writeBytes, h8, List.length_replicate]
  by_cases h56 : 56 ≤ k
  · rw [if_pos ⟨h56, by omega⟩, List.getD_append_right _ _ _ _ (by simp; omega),
      List.getD_append_right _ _ _ _ (by simp; omega)]
    simp only [Buf.length_readBytes, List.length_replicate]
    congr 1; omega
  · rw [if_neg (by omega)]
    by_cases hnk : n ≤ k
    · rw [if_pos (by omega), List.getD_append_right _ _ _ _ (by simp; omega),
        List.getD_append _ _ _ _ (by simp; omega)]
      simp [List.getD_eq_getElem?_getD, show k - n < 56 - n by omega]
    · rw [if_neg (by omega), List.getD_append _ _ _ _ (by simp; omega),
        Buf.getD_readBytes _ _ _ _ (by omega), Nat.zero_add]

theorem beyond_lastBuf (m : List Host.Cell) (n : Nat) (hn : n ≤ 56) (bits : Word64) (a : Nat)
    (ha : 64 ≤ a) : Buf.read (lastBuf m n bits) a = Buf.read m a := by
  have h8 : (bytesBe64 bits).length = 8 := rfl
  rw [lastBuf, Buf.read_writeBytes, Buf.read_writeBytes, h8, List.length_replicate,
    if_neg (by omega), if_neg (by omega)]

theorem wf_lastBuf {m : List Host.Cell} (hm : Buf.wf m) (n : Nat) (hn : n ≤ 56) (bits : Word64) :
    Buf.wf (lastBuf m n bits) :=
  Buf.wf_writeBytes (Buf.wf_writeBytes hm (by simp; omega)) (by simp [bytesBe64])

section close
variable (s : State)
@[simp] theorem close_phase : (close s).phase = .finalized := rfl
@[simp] theorem close_variant : (close s).variant = s.variant := rfl
@[simp] theorem close_h : (close s).h = s.h := rfl
@[simp] theorem close_totbits : (close s).totbits = s.totbits := rfl
@[simp] theorem close_buf : (close s).buf = s.buf := rfl
@[simp] theorem close_len :
    (close s).len = BitVec.ofNat 7 (Config.lenAfterFinal s.freeCtr).val := rfl
@[simp] theorem close_blkcnt : (close s).blkcnt = s.blkcnt := rfl
@[simp] theorem close_cmd : (close s).cmd = s.cmd := rfl
@[simp] theorem close_resp : (close s).resp = s.resp := rfl
@[simp] theorem close_traceEn : (close s).traceEn = s.traceEn := rfl
@[simp] theorem close_trace : (close s).trace = s.trace := rfl
@[simp] theorem close_traceCtr : (close s).traceCtr = s.traceCtr := rfl
@[simp] theorem close_freeCtr : (close s).freeCtr = s.freeCtr + 1 := rfl
end close

/-- The state before the last compression of the one-block case. -/
def lastOne (s : State) : State :=
  { bitAppended s with buf := lastBuf (bitAppended s).buf (s.len.toNat + 1) (messageBits s) }

theorem finalize_one (s : State) (h : s.len.toNat < 56) :
    finalize s = .ok (close (compress (lastOne s))) := by
  have hl := bitAppended_len s (by omega)
  obtain ⟨s4, h4, h5⟩ := tail_ok (bitAppended s) (by omega)
  rw [hl] at h5
  simp only [finalize, appendBit_ok s (by omega), spill_no s h, h4, h5]
  rfl

/-- The buffer of `spilledNext`. -/
theorem spilledNext_buf (s : State) : (spilledNext s).buf = (spilled s).buf := by
  unfold spilledNext; exact compress_buf _

/-- The state before the last compression of the two-block case. -/
def lastTwo (s : State) : State :=
  { spilledNext s with buf := lastBuf (spilledNext s).buf 0 (spilledNext s).totbits }

theorem finalize_two (s : State) (h : s.len.toNat < 64) (h56 : 56 ≤ s.len.toNat) :
    finalize s = .ok (close (compress (lastTwo s))) := by
  have hl : (spilledNext s).len.toNat = 0 := by
    show (0 : BitVec 7).toNat = 0; rfl
  obtain ⟨s4, h4, h5⟩ := tail_ok (spilledNext s) (by omega)
  rw [hl] at h5
  simp only [finalize, appendBit_ok s h, spill_yes s h h56, h4, h5, lastTwo]

/-- FINAL with at most 55 bytes in the buffer compresses one block (R101). -/
theorem finalize_one_padded (s : State) (h : s.len.toNat < 56) : ∃ t, finalize s = .ok t ∧
    Padded 1 (compressFn s.variant s.h (oneBlock s)) (oneBlock s) s t := by
  have hread : Buf.readBytes (lastOne s).buf 0 64 = oneBlock s := by
    show Buf.readBytes (lastBuf (Buf.write s.buf s.len.toNat 0x80) (s.len.toNat + 1) (messageBits s)) 0 64 = _
    rw [readBytes_lastBuf _ _ (by omega), readBytes_write_end, oneBlock, partialBlock,
      show 56 - (s.len.toNat + 1) = 55 - s.len.toNat by omega]
    simp
  refine ⟨_, finalize_one s h, ?_⟩
  exact
    { phase := close_phase _
      variant := (close_variant _).trans (compress_variant _)
      cmd := (close_cmd _).trans (compress_cmd _)
      resp := (close_resp _).trans (compress_resp _)
      traceEn := (close_traceEn _).trans (compress_traceEn _)
      trace := (close_trace _).trans (compress_trace _)
      traceCtr := (close_traceCtr _).trans (compress_traceCtr _)
      freeCtr := by rw [close_freeCtr, compress_freeCtr]; rfl
      len := by rw [close_len, compress_freeCtr]; rfl
      totbits := by rw [close_totbits, compress_totbits]; rfl
      blkcnt := by rw [close_blkcnt, compress_blkcnt]; rfl
      h := by rw [close_h, compress_h, hread]; rfl
      held := by rw [close_buf, compress_buf, hread]
      beyond := fun a ha => by
        rw [close_buf, compress_buf]
        refine (beyond_lastBuf _ _ (by omega) _ a ha).trans ?_
        show Buf.read (Buf.write s.buf s.len.toNat 0x80) a = _
        rw [Buf.read_write, if_neg (by omega)]
      wf := fun hm => by
        rw [close_buf, compress_buf]
        have hw : Buf.wf (Buf.write s.buf s.len.toNat 0x80) := Buf.wf_write hm (by omega) _
        have hb : (lastOne s).buf =
          lastBuf (Buf.write s.buf s.len.toNat 0x80) (s.len.toNat + 1) (messageBits s) := rfl
        rw [hb]
        exact wf_lastBuf hw _ (by omega) _ }

theorem readBytes_spilled (s : State) (h : s.len.toNat < 64) :
    Buf.readBytes (spilled s).buf 0 64 = firstBlock s := by
  show Buf.readBytes (Buf.writeBytes (Buf.write s.buf s.len.toNat 0x80) (s.len.toNat + 1)
      (List.replicate (64 - (s.len.toNat + 1)) 0)) 0 64 = _
  refine Buf.readBytes_eq (by simp [firstBlock]; omega) fun k hk => ?_
  have e : firstBlock s = Buf.readBytes (Buf.write s.buf s.len.toNat 0x80) 0 (s.len.toNat + 1) ++
      List.replicate (63 - s.len.toNat) 0 := by
    rw [readBytes_write_end, firstBlock, partialBlock]; simp
  rw [e, Buf.read_writeBytes, List.length_replicate]
  by_cases hk1 : s.len.toNat + 1 ≤ k
  · rw [if_pos (by omega), List.getD_append_right _ _ _ _ (by simp; omega)]
    simp only [Buf.length_readBytes, List.getD_eq_getElem?_getD, List.getElem?_replicate]
    rw [if_pos (by omega), if_pos (by omega)]
  · rw [if_neg (by omega), List.getD_append _ _ _ _ (by simp; omega),
      Buf.getD_readBytes _ _ _ _ (by omega), Nat.zero_add]

section spilledNext
variable (s : State)
theorem spilledNext_totbits : (spilledNext s).totbits = messageBits s := by
  unfold spilledNext; exact compress_totbits _
theorem spilledNext_variant : (spilledNext s).variant = s.variant := by
  unfold spilledNext; exact compress_variant _
theorem spilledNext_cmd : (spilledNext s).cmd = s.cmd := by unfold spilledNext; exact compress_cmd _
theorem spilledNext_resp : (spilledNext s).resp = s.resp := by unfold spilledNext; exact compress_resp _
theorem spilledNext_traceEn : (spilledNext s).traceEn = s.traceEn := by
  unfold spilledNext; exact compress_traceEn _
theorem spilledNext_trace : (spilledNext s).trace = s.trace := by unfold spilledNext; exact compress_trace _
theorem spilledNext_traceCtr : (spilledNext s).traceCtr = s.traceCtr := by
  unfold spilledNext; exact compress_traceCtr _
theorem spilledNext_freeCtr : (spilledNext s).freeCtr = s.freeCtr := by
  unfold spilledNext; exact compress_freeCtr _
theorem spilledNext_blkcnt : (spilledNext s).blkcnt = s.blkcnt + 1 := by
  unfold spilledNext; exact compress_blkcnt _
theorem spilledNext_h (h : s.len.toNat < 64) :
    (spilledNext s).h = compressFn s.variant s.h (firstBlock s) := by
  have e : (spilledNext s).h = (compress (spilled s)).h := by
    rfl
  rw [e, compress_h, readBytes_spilled s h]; rfl
end spilledNext

/-- FINAL with 56 to 63 bytes in the buffer compresses two blocks (R101). -/
theorem finalize_two_padded (s : State) (h : s.len.toNat < 64) (h56 : 56 ≤ s.len.toNat) :
    ∃ t, finalize s = .ok t ∧
      Padded 2 (compressFn s.variant (compressFn s.variant s.h (firstBlock s)) (secondBlock s))
        (secondBlock s) s t := by
  have hbuf : (lastTwo s).buf = lastBuf (spilledNext s).buf 0 (spilledNext s).totbits := rfl
  have hread : Buf.readBytes (lastTwo s).buf 0 64 = secondBlock s := by
    rw [hbuf, readBytes_lastBuf _ _ (by omega), spilledNext_totbits]
    simp [secondBlock, Buf.readBytes]
  refine ⟨_, finalize_two s h h56, ?_⟩
  exact
    { phase := close_phase _
      variant := ((close_variant _).trans (compress_variant _)).trans (spilledNext_variant s)
      cmd := ((close_cmd _).trans (compress_cmd _)).trans (spilledNext_cmd s)
      resp := ((close_resp _).trans (compress_resp _)).trans (spilledNext_resp s)
      traceEn := ((close_traceEn _).trans (compress_traceEn _)).trans (spilledNext_traceEn s)
      trace := ((close_trace _).trans (compress_trace _)).trans (spilledNext_trace s)
      traceCtr := ((close_traceCtr _).trans (compress_traceCtr _)).trans (spilledNext_traceCtr s)
      freeCtr := by
        rw [close_freeCtr, compress_freeCtr]
        exact congrArg (· + 1) (spilledNext_freeCtr s)
      len := by
        rw [close_len, compress_freeCtr]
        exact congrArg (fun n => BitVec.ofNat 7 (Config.lenAfterFinal n).val) (spilledNext_freeCtr s)
      totbits := ((close_totbits _).trans (compress_totbits _)).trans (spilledNext_totbits s)
      blkcnt := by
        rw [close_blkcnt, compress_blkcnt]
        have e : (lastTwo s).blkcnt = s.blkcnt + 1 := spilledNext_blkcnt s
        rw [e, BitVec.add_assoc]; rfl
      h := by
        rw [close_h, compress_h, hread]
        have e1 : (lastTwo s).h = _ := spilledNext_h s h
        have e2 : (lastTwo s).variant = _ := spilledNext_variant s
        rw [e1, e2]
      held := by rw [close_buf, compress_buf, hread]
      beyond := fun a ha => by
        rw [close_buf, compress_buf, hbuf, beyond_lastBuf _ _ (by omega) _ a ha, spilledNext_buf]
        show Buf.read (Buf.writeBytes (Buf.write s.buf s.len.toNat 0x80) (s.len.toNat + 1)
          (List.replicate (64 - (s.len.toNat + 1)) 0)) a = _
        rw [Buf.read_writeBytes, List.length_replicate, if_neg (by omega), Buf.read_write,
          if_neg (by omega)]
      wf := fun hm => by
        rw [close_buf, compress_buf, hbuf, spilledNext_buf]
        refine wf_lastBuf ?_ _ (by omega) _
        show Buf.wf (Buf.writeBytes (Buf.write s.buf s.len.toNat 0x80) (s.len.toNat + 1)
          (List.replicate (64 - (s.len.toNat + 1)) 0))
        exact Buf.wf_writeBytes (Buf.wf_write hm h _) (by simp; omega) }

/-- FINAL with no room for the 0x80 byte: the model's stop (log entry 9). -/
theorem finalize_fault (s : State) (h : 64 ≤ s.len.toNat) :
    finalize s = .error (.bufferIndex s.len.toNat) := by
  simp only [finalize, appendBit_fault s h]

/-- FINAL in phase Accepting, from what `finalize` gives. -/
theorem execFinal_ok {s t : State} (hp : s.phase = .accepting) (ht : finalize s = .ok t) :
    execFinal s = .next (respond .ok (serialize t.h) t) := by
  simp only [execFinal, (accepting_iff s).mpr hp, if_true, ht]

theorem execFinal_fault {s : State} {f : Fault} (hp : s.phase = .accepting)
    (ht : finalize s = .error f) : execFinal s = .fault f := by
  simp only [execFinal, (accepting_iff s).mpr hp, if_true, ht]

/-- FINAL outside phase Accepting. -/
theorem execFinal_invalidState (s : State) (hp : s.phase ≠ .accepting) :
    execFinal s = .next (raise .invalidState s) := by
  simp [execFinal, (accepting_false_iff s).mpr hp]

end Sys2Proof.Machine
end

