-- ==== Sys2Proof/Laws/Exec.lean ====
section
/-! SUPPORT. Everything a command and a step can answer, said once, so that a proof about every step
is a case analysis over these and unfolds nothing. -/

namespace Sys2Proof.Machine

/-- Everything `exec` can answer as a next state. -/
theorem exec_cases (i : Instr) (s t : State) (h : exec i s = .next t) :
    (i = .initSha0 ∧ t = respond .ok [] (construct .sha0 s)) ∨
    (i = .initSha1 ∧ t = respond .ok [] (construct .sha1 s)) ∨
    (∃ data u, i = .absorb data ∧ s.phase = .accepting ∧ absorbBytes data s = .ok u ∧
      t = respond .ok [] u) ∨
    (i = .absorbNull 0 ∧ s.phase = .accepting ∧ t = respond .ok [] s) ∨
    (∃ cnt, i = .absorbNull cnt ∧ cnt ≠ 0 ∧ s.phase = .accepting ∧ t = raise .invalidArgument s) ∨
    (i = .final ∧ s.phase = .accepting ∧
      ∃ u, finalize s = .ok u ∧ t = respond .ok (serialize u.h) u) ∨
    (s.phase ≠ .accepting ∧ i ≠ .initSha0 ∧ i ≠ .initSha1 ∧ t = raise .invalidState s) := by
  by_cases hp : s.phase = .accepting
  · cases i with
    | initSha0 => injection h with h; exact .inl ⟨rfl, h.symm⟩
    | initSha1 => injection h with h; exact .inr (.inl ⟨rfl, h.symm⟩)
    | absorb data =>
      have h : execAbsorb data s = .next t := h
      simp only [execAbsorb, (accepting_iff s).mpr hp, if_true] at h
      cases hu : absorbBytes data s with
      | error f => rw [hu] at h; cases h
      | ok u =>
        rw [hu] at h; injection h with h
        exact .inr (.inr (.inl ⟨data, u, rfl, hp, hu, h.symm⟩))
    | absorbNull cnt =>
      have h : execAbsorbNull cnt s = .next t := h
      rw [execAbsorbNull_eq, if_pos hp] at h
      by_cases hc : cnt = 0
      · rw [if_pos hc] at h; injection h with h
        exact .inr (.inr (.inr (.inl ⟨by rw [hc], hp, h.symm⟩)))
      · rw [if_neg hc] at h; injection h with h
        exact .inr (.inr (.inr (.inr (.inl ⟨cnt, rfl, hc, hp, h.symm⟩))))
    | final =>
      have h : execFinal s = .next t := h
      simp only [execFinal, (accepting_iff s).mpr hp, if_true] at h
      cases hu : finalize s with
      | error f => rw [hu] at h; cases h
      | ok u =>
        rw [hu] at h; injection h with h
        exact .inr (.inr (.inr (.inr (.inr (.inl ⟨rfl, hp, u, rfl, h.symm⟩)))))
  · cases i with
    | initSha0 => injection h with h; exact .inl ⟨rfl, h.symm⟩
    | initSha1 => injection h with h; exact .inr (.inl ⟨rfl, h.symm⟩)
    | absorb data =>
      have h : execAbsorb data s = .next t := h
      rw [execAbsorb_invalidState data s hp] at h; injection h with h
      exact .inr (.inr (.inr (.inr (.inr (.inr ⟨hp, by simp, by simp, h.symm⟩)))))
    | absorbNull cnt =>
      have h : execAbsorbNull cnt s = .next t := h
      rw [execAbsorbNull_eq, if_neg hp] at h; injection h with h
      exact .inr (.inr (.inr (.inr (.inr (.inr ⟨hp, by simp, by simp, h.symm⟩)))))
    | final =>
      have h : execFinal s = .next t := h
      rw [execFinal_invalidState s hp] at h; injection h with h
      exact .inr (.inr (.inr (.inr (.inr (.inr ⟨hp, by simp, by simp, h.symm⟩)))))

/-- Everything a step can answer. -/
theorem step_cases (s : State) :
    (∃ i rest, decode s.cmd = .instr i rest ∧ step s = exec i (consume rest s)) ∨
    (∃ why rest, decode s.cmd = .illegal why rest ∧
      step s = .next (raise .illegalCommand (consume rest s))) ∨
    (∃ why, decode s.cmd = .incomplete why ∧ ∃ r, step s = .refused r) := by
  unfold step fetch
  cases decode s.cmd with
  | instr i rest => exact .inl ⟨_, _, rfl, rfl⟩
  | illegal why rest => exact .inr (.inl ⟨_, _, rfl, rfl⟩)
  | incomplete why => exact .inr (.inr ⟨_, rfl, by cases why <;> exact ⟨_, rfl⟩⟩)

/-- Two steps from the same command stream are related when the commands they run are. -/
theorem step_related {R : State → State → Prop} {s s' : State} (hc : s.cmd = s'.cmd)
    (hi : ∀ i rest, Related R (exec i (consume rest s)) (exec i (consume rest s')))
    (hr : ∀ rest, R (raise .illegalCommand (consume rest s)) (raise .illegalCommand (consume rest s'))) :
    Related R (step s) (step s') := by
  unfold step fetch
  rw [← hc]
  cases decode s.cmd with
  | instr i rest => exact hi i rest
  | illegal why rest => exact hr rest
  | incomplete why => cases why <;> exact rfl

/-- Everything `absorb_byte` on a payload gives, whatever LEN is. -/
theorem absorbBytes_cases (data : List Byte) (s u : State) (h : absorbBytes data s = .ok u) :
    (data = [] ∧ u = s) ∨ (s.len.toNat < 64 ∧ Absorbed data s u) := by
  by_cases hl : s.len.toNat < 64
  · obtain ⟨t, ht, A⟩ := absorbBytes_ok data s hl
    rw [h] at ht; injection ht with ht; subst ht; exact .inr ⟨hl, A⟩
  · cases data with
    | nil => injection h with h; exact .inl ⟨rfl, h.symm⟩
    | cons x xs => rw [absorbBytes, absorbByte_fault x s (by omega)] at h; cases h

/-- Everything the padding sequence gives with room for the 0x80 byte: one block or two (R101). -/
theorem finalize_next (s : State) (hl : s.len.toNat < 64) :
    ∃ t n h block, finalize s = .ok t ∧ Padded n h block s t ∧
      ((s.len.toNat ≤ 55 ∧ n = 1 ∧ block = oneBlock s ∧ h = compressFn s.variant s.h (oneBlock s)) ∨
       (56 ≤ s.len.toNat ∧ n = 2 ∧ block = secondBlock s ∧
        h = compressFn s.variant (compressFn s.variant s.h (firstBlock s)) (secondBlock s))) := by
  by_cases h : s.len.toNat ≤ 55
  · obtain ⟨t, ht, P⟩ := finalize_one_padded s (by omega)
    exact ⟨t, _, _, _, ht, P, .inl ⟨h, rfl, rfl, rfl⟩⟩
  · obtain ⟨t, ht, P⟩ := finalize_two_padded s hl (by omega)
    exact ⟨t, _, _, _, ht, P, .inr ⟨by omega, rfl, rfl, rfl⟩⟩

/-- Everything the padding sequence gives, whatever LEN is. -/
theorem finalize_cases (s u : State) (h : finalize s = .ok u) :
    s.len.toNat < 64 ∧ ∃ n h' block, Padded n h' block s u := by
  by_cases hl : s.len.toNat < 64
  · obtain ⟨t, n, h', block, ht, P, _⟩ := finalize_next s hl
    rw [h] at ht; injection ht with ht; subst ht; exact ⟨hl, _, _, _, P⟩
  · rw [finalize_fault s (by omega)] at h; cases h

/-- LEN after FINAL is a legal value, whatever the free value is (R17). -/
theorem lenAfterFinal_le (n : Nat) : (BitVec.ofNat 7 (Config.lenAfterFinal n).val).toNat ≤ 64 := by
  have := (Config.lenAfterFinal n).isLt
  simp; omega

/-- A list of commands in two parts. -/
theorem execList_append (is js : List Instr) : ∀ s t, execList is s = .next t →
    execList (is ++ js) s = execList js t := by
  induction is with
  | nil => intro s t h; injection h with h; subst h; rfl
  | cons i is ih =>
    intro s t h
    simp only [List.cons_append, execList] at h ⊢
    cases hi : exec i s with
    | next u => rw [hi] at h; exact ih _ _ h
    | fault f => rw [hi] at h; cases h
    | refused r => rw [hi] at h; cases h

end Sys2Proof.Machine
end

