-- ==== Sys2Proof/Laws/Hash.lean ====
section
/-! SUPPORT. The registers after several blocks: block lists in two parts. -/

namespace Sys2Proof.Machine

theorem hashBlocks_add (v : Variant) (m : Nat) : ∀ (n : Nat) (bytes : List Byte) (h : Regs),
    hashBlocks v (m + n) bytes h = hashBlocks v n (bytes.drop (64 * m)) (hashBlocks v m bytes h) := by
  induction m with
  | zero => intro n bytes h; simp [hashBlocks]
  | succ m ih =>
    intro n bytes h
    rw [Nat.add_right_comm, hashBlocks, ih, hashBlocks, List.drop_drop]
    congr 2; omega

/-- Bytes after the last whole block counted do not matter. -/
theorem hashBlocks_front (v : Variant) (n : Nat) : ∀ (xs ys : List Byte) (h : Regs),
    64 * n ≤ xs.length → hashBlocks v n (xs ++ ys) h = hashBlocks v n xs h := by
  induction n with
  | zero => intros; rfl
  | succ n ih =>
    intro xs ys h hl
    rw [hashBlocks, hashBlocks, List.take_append_of_le_length (by omega),
      List.drop_append_of_le_length (by omega), ih _ _ _ (by rw [List.length_drop]; omega)]

/-- The whole blocks of `xs` first, then what is left of it with `ys`. -/
theorem hashBlocks_append (v : Variant) (n : Nat) (xs ys : List Byte) (h : Regs) :
    hashBlocks v (xs.length / 64 + n) (xs ++ ys) h =
      hashBlocks v n (xs.drop (64 * (xs.length / 64)) ++ ys) (hashBlocks v (xs.length / 64) xs h) := by
  rw [hashBlocks_add, hashBlocks_front _ _ _ _ _ (by omega),
    List.drop_append_of_le_length (by omega)]

theorem hashBlocks_one (v : Variant) (block : List Byte) (h : Regs) (hl : block.length = 64) :
    hashBlocks v 1 block h = compressFn v h block := by
  rw [hashBlocks, hashBlocks, List.take_of_length_le (by omega)]

end Sys2Proof.Machine
end

