-- ==== Sys2Proof/Laws/PerInstr.lean ====
section
/-! SUPPORT. The family EncodeLength: how long each command's encoding is (30_encoding.md R52). -/

namespace Sys2Proof.Laws

/-- A command is four bytes, and an ABSORB with a payload that many bytes more (R52). -/
def EncodeLength.Statement (i : Instr) : Prop :=
  (encode i).length = 4 + (encodePayload i).length

theorem EncodeLength.initSha0 : EncodeLength.Statement .initSha0 := by
  simp [EncodeLength.Statement, encode]
theorem EncodeLength.initSha1 : EncodeLength.Statement .initSha1 := by
  simp [EncodeLength.Statement, encode]
theorem EncodeLength.absorb (data : List Byte) : EncodeLength.Statement (.absorb data) := by
  simp [EncodeLength.Statement, encode]
theorem EncodeLength.absorbNull (cnt : BitVec 27) : EncodeLength.Statement (.absorbNull cnt) := by
  simp [EncodeLength.Statement, encode]
theorem EncodeLength.final : EncodeLength.Statement .final := by
  simp [EncodeLength.Statement, encode]

end Sys2Proof.Laws
end

