-- ==== Sys2Proof/Tests/Slice0.lean ====
section
/-! SUPPORT. Tests with results from the spec's worked examples, and for each statement of
Certificates/Slice0 that has hypotheses a witness that meets them. -/

namespace Sys2Proof.Tests

open Sys2Proof.Machine

/-- A field of a next state; none where the step stops. -/
def got {α : Type} (f : State → α) : Host.Outcome State Fault Refusal → Option α
  | .next t => some (f t)
  | .fault _ => none
  | .refused _ => none

/-- A computation of variant `v` in progress, with `bytes` in BUF and registers `h`. -/
def openWith (v : Variant) (h : Regs) (bytes : List Byte) : State :=
  { State.reset with
    phase := .accepting
    variant := v
    h := h
    buf := Buf.writeBytes [] 0 bytes
    len := BitVec.ofNat 7 bytes.length }

/-- A computation in progress with `n` bytes 0x61 absorbed, `n < 64`. -/
def openA (v : Variant) (n : Nat) : State := openWith v initialH (List.replicate n 0x61)

/-- A finished computation. -/
def closed : State := { State.reset with phase := .finalized }

/-- The state whose command stream is `bytes`. -/
def withCmd (bytes : List Byte) (s : State) : State := { s with cmd := bytes }

/-! ### Well-formedness -/

-- R48: CNT has 27 bits, so 2^27 payload bytes are too many for one ABSORB.
theorem test_wf_refuses_long_payload : (Instr.absorb (List.replicate (2 ^ 27) 0)).wf = false := by
  simp only [Instr.wf, List.length_replicate]; decide
theorem test_wf_longest_payload : (Instr.absorb (List.replicate (2 ^ 27 - 1) 0)).wf = true := by
  simp only [Instr.wf, List.length_replicate]; decide
theorem test_wf_others : Instr.initSha0.wf = true ∧ Instr.initSha1.wf = true ∧
    (Instr.absorbNull (BitVec.allOnes 27)).wf = true ∧ Instr.final.wf = true := by decide

/-! ### Decoding: words written out from the encodings of R46 to R49 -/

-- R47: OPC 0001, bits 27 to 1 zero, v = 0.
theorem test_decode_initSha0 :
    decode [0b00010000, 0b00000000, 0b00000000, 0b00000000] = .instr .initSha0 [] := by decide
-- R47: OPC 0001, bits 27 to 1 zero, v = 1.
theorem test_decode_initSha1 :
    decode [0b00010000, 0b00000000, 0b00000000, 0b00000001, 0xAA] = .instr .initSha1 [0xAA] := by decide
-- R48, R50: OPC 0010, P = 1, CNT = 2, then the payload in stream order.
theorem test_decode_absorb :
    decode [0b00101000, 0b00000000, 0b00000000, 0b00000010, 0x61, 0x62, 0x63] =
      .instr (.absorb [0x61, 0x62]) [0x63] := by decide
-- R48, R50: OPC 0010, P = 0, CNT = 0b100000000000000000000000101, no payload.
theorem test_decode_absorbNull :
    decode [0b00100100, 0b00000000, 0b00000000, 0b00000101, 0x63] =
      .instr (.absorbNull 0b100000000000000000000000101) [0x63] := by decide
-- R49: OPC 0011, bits 27 to 0 zero.
theorem test_decode_final :
    decode [0b00110000, 0b00000000, 0b00000000, 0b00000000] = .instr .final [] := by decide
-- V51: the illegal headers.
theorem test_decode_illegal :
    decode [0x40, 0, 0, 0] = .illegal .unassignedOpcode [] ∧
    decode [0xF0, 0, 0, 0] = .illegal .unassignedOpcode [] ∧
    decode [0x18, 0, 0, 0] = .illegal .initReservedBits [] ∧
    decode [0x10, 0, 1, 0] = .illegal .initReservedBits [] ∧
    decode [0x38, 0, 0, 0] = .illegal .finalReservedBits [] := by decide
-- P5: a stream cut short inside a payload; R52: and inside a header.
theorem test_decode_incomplete :
    decode [0x28, 0, 0, 3, 0x61, 0x62] = .incomplete .payload ∧
    decode [0x10, 0, 0] = .incomplete .header ∧ decode [] = .incomplete .noCommand := by decide
-- R60: the same examples, encoded.
theorem test_encode :
    encode .initSha0 = [0x10, 0, 0, 0] ∧ encode .initSha1 = [0x10, 0, 0, 1] ∧
    encode (.absorb [0x61, 0x62, 0x63]) = [0x28, 0, 0, 3, 0x61, 0x62, 0x63] ∧
    encode (.absorbNull 5) = [0x20, 0, 0, 5] ∧ encode .final = [0x30, 0, 0, 0] := by decide
-- The words of spec/opcode_table.json.
theorem test_table_words :
    decodeTableWord 32 0x10000000 = some .initSha0 ∧ decodeTableWord 32 0x10000001 = some .initSha1 ∧
    decodeTableWord 32 0x28000000 = some (.absorb []) ∧
    decodeTableWord 32 0x28000002 = some (.absorb [0, 0]) ∧
    decodeTableWord 40 0x6128000001 = some (.absorb [0x61]) ∧
    decodeTableWord 32 0x20000005 = some (.absorbNull 5) ∧
    decodeTableWord 32 0x30000000 = some .final ∧ decodeTableWord 32 0x30000001 = none := by decide

/-! ### Primitives and the compression -/

-- V5.
theorem test_rotl32 :
    rotl32 0x80000000 1 = 0x00000001 ∧ rotl32 0x00000001 31 = 0x80000000 ∧
    rotl32 0x12345678 0 = 0x12345678 ∧ rotl32 0x12345678 5 = 0x468ACF02 ∧
    rotl32 0x12345678 30 = 0x048D159E ∧ rotl32 0xEFCDAB89 30 = 0x7BF36AE2 := by decide
-- V5.
theorem test_words_and_bytes :
    add32 0xFFFFFFFF 1 = 0 ∧ add32 0x67452301 0xEFCDAB89 = 0x5712CE8A ∧
    not32 0xEFCDAB89 = 0x10325476 ∧ be32 0x61 0x62 0x63 0x80 = 0x61626380 ∧
    bytesBe32 0xA9993E36 = [0xA9, 0x99, 0x3E, 0x36] ∧
    bytesBe64 0x00000000007A1200 = [0, 0, 0, 0, 0, 0x7A, 0x12, 0] := by decide
-- V6, the rows that tell the three functions apart.
theorem test_round_functions :
    choice 0xF0F0F0F0 0xCCCCCCCC 0xAAAAAAAA = 0xCACACACA ∧
    parity 0xF0F0F0F0 0xCCCCCCCC 0xAAAAAAAA = 0x96969696 ∧
    majority 0xF0F0F0F0 0xCCCCCCCC 0xAAAAAAAA = 0xE8E8E8E8 ∧
    choice 0xFFFFFFFF 0x12345678 0x9ABCDEF0 = 0x12345678 ∧
    majority 0x00000000 0x12345678 0x9ABCDEF0 = 0x12345670 := by decide
-- V10, round 0 and round 1.
theorem test_rounds :
    roundStep 0 0x61626380 (load initialH) =
      ⟨0x0116FC33, 0x67452301, 0x7BF36AE2, 0x98BADCFE, 0x10325476⟩ ∧
    roundStep 1 0 ⟨0x0116FC33, 0x67452301, 0x7BF36AE2, 0x98BADCFE, 0x10325476⟩ =
      ⟨0x8990536D, 0x0116FC33, 0x59D148C0, 0x7BF36AE2, 0x98BADCFE⟩ := by decide
/-- The words of the padded block of "abc" (V10). -/
def abcWords : List Word := 0x61626380 :: (List.replicate 14 0 ++ [0x18])
-- V10, V11: the schedule of both variants at both ends.
theorem test_schedule :
    (schedule 1 abcWords).getD 16 0 = 0xC2C4C700 ∧ (schedule 1 abcWords).getD 18 0 = 0x00000030 ∧
    (schedule 1 abcWords).getD 79 0 = 0x822E0879 ∧ (schedule 0 abcWords).getD 16 0 = 0x61626380 ∧
    (schedule 0 abcWords).getD 78 0 = 0x61626380 ∧ (schedule 0 abcWords).getD 79 0 = 0 := by
  decide +kernel
/-- The block 00 01 02 to 3f of V12. -/
def countingBlock : List Byte := (List.range 64).map (BitVec.ofNat 8)
-- V12: all sixteen words differ, both variants.
theorem test_compress :
    compressFn .sha1 initialH countingBlock =
      ⟨0xB9AC757B, 0xBC297925, 0x2E227274, 0x06872F94, 0xCBEA56A1⟩ ∧
    compressFn .sha0 initialH countingBlock =
      ⟨0x9981CD70, 0x8C839225, 0xA8D6B6CA, 0x195709DE, 0x3AC41205⟩ := by decide +kernel
-- V12: the digest registers are added to, not replaced.
theorem test_compress_from_zero :
    compressFn .sha1 ⟨0, 0, 0, 0, 0⟩ (List.replicate 64 0) =
      ⟨0x9E1547ED, 0x57EC91C2, 0x30FA8BC8, 0xC7785A54, 0xA7EFA5E3⟩ := by decide +kernel

/-! ### One step of each command -/

-- V8: INIT.SHA1 out of Idle, with the fields of the end state.
theorem test_init_sha1 :
    got (fun t => (t.phase, t.variant, t.h)) (step (withCmd [0x10, 0, 0, 1] State.reset)) =
      some (.accepting, .sha1, ⟨0x67452301, 0xEFCDAB89, 0x98BADCFE, 0x10325476, 0xC3D2E1F0⟩) ∧
    got (fun t => (t.totbits, t.len, t.blkcnt, t.resp)) (step (withCmd [0x10, 0, 0, 1] State.reset)) =
      some (0, 0, 0, [0x00]) := by decide
-- V8: INIT.SHA0 in the middle of a computation; nothing of it remains.
theorem test_init_sha0 :
    got (fun t => (t.variant, t.h, t.totbits, t.len))
      (exec .initSha0 { openWith .sha1 ⟨1, 2, 3, 4, 5⟩ [0x61] with totbits := 512 }) =
    some (.sha0, ⟨0x67452301, 0xEFCDAB89, 0x98BADCFE, 0x10325476, 0xC3D2E1F0⟩, 0, 0) := by decide
-- R70: ABSORB "abc" in the state after INIT.SHA1.
theorem test_absorb_abc :
    got (fun t => (Buf.readBytes t.buf 0 3, t.len, t.totbits, t.resp))
      (exec (.absorb [0x61, 0x62, 0x63]) (openA .sha1 0)) =
    some ([0x61, 0x62, 0x63], 3, 0, [0x00]) := by decide
-- R75, V9: the 64th byte is flushed by the ABSORB that brings it, and the 65th is held.
theorem test_absorb_flush :
    got (fun t => (t.len, t.totbits, t.blkcnt, t.h)) (exec (.absorb [0x61, 0x61]) (openA .sha1 63)) =
    some (1, 512, 1, ⟨0xDA4968EB, 0x2E377C1F, 0x884E8F52, 0x83524BEB, 0xE74EBDBD⟩) := by
  decide +kernel
-- R71: ABSORB.NULL 5 reports InvalidArgument and leaves every field; ABSORB.NULL 0 is a no-op.
theorem test_absorb_null :
    exec (.absorbNull 5) (openA .sha1 3) = .next { openA .sha1 3 with resp := [0x01] } ∧
    exec (.absorbNull 0) (openA .sha1 3) = .next { openA .sha1 3 with resp := [0x00] } := ⟨rfl, rfl⟩
-- R117: in phase Finalized the phase is checked before the argument.
theorem test_absorb_null_finalized :
    exec (.absorbNull 5) closed = .next { closed with resp := [0x02] } := rfl
-- R102 item 5, P1: FINAL on "abc", SHA-1, one block.
theorem test_final_one_block :
    got (fun t => (t.phase, t.totbits, t.blkcnt, t.resp))
      (exec .final (openWith .sha1 initialH [0x61, 0x62, 0x63])) =
    some (.finalized, 24, 1, [0x00, 0xA9, 0x99, 0x3E, 0x36, 0x47, 0x06, 0x81, 0x6A, 0xBA, 0x3E,
      0x25, 0x71, 0x78, 0x50, 0xC2, 0x6C, 0x9C, 0xD0, 0xD8, 0x9D]) := by decide +kernel
-- V21: FINAL with 56 bytes held, SHA-0, two blocks.
theorem test_final_two_blocks :
    got (fun t => (t.totbits, t.blkcnt, t.resp)) (exec .final (openA .sha0 56)) =
    some (448, 2, [0x00, 0xF8, 0x26, 0xF1, 0xDB, 0x56, 0xDD, 0xB2, 0x70, 0xE2, 0x5F, 0x21, 0xA7,
      0xA4, 0x0C, 0x41, 0x63, 0xB5, 0x1C, 0x47, 0xFF]) := by decide +kernel
-- V50: a faulting ABSORB consumes its payload (R54), and the next header is found.
theorem test_fault_consumes_payload :
    got (fun t => (t.phase, t.resp, t.cmd)) (step (withCmd [0x28, 0, 0, 1, 0x62, 0x20, 0, 0, 0] closed)) =
    some (.finalized, [0x02], [0x20, 0, 0, 0]) := by decide
-- V51: an illegal header, four bytes consumed.
theorem test_illegal_header :
    got (fun t => (t.phase, t.resp, t.cmd)) (step (withCmd [0x40, 0, 0, 0, 0x30] (openA .sha1 1))) =
    some (.accepting, [0x03], [0x30]) := by decide
-- P5, R133: no step on a stream cut short, and none where the run is finished.
theorem test_no_step :
    step (withCmd [0x28, 0, 0, 3, 0x61, 0x62] (openA .sha1 0)) = .refused .incompleteCommand ∧
    step State.reset = .refused .noCommand := ⟨rfl, rfl⟩
-- The opcode table's INIT.SHA1 as the first command after reset, placed and run.
theorem test_table_word_runs :
    step (State.reset.withFetchWord 32 0x10000001) = exec .initSha1 State.reset := rfl
-- The core is this machine.
theorem test_core : Sys2Proof.core.reset = State.reset := rfl

/-! ### The host's side -/

-- V35.
theorem test_hex :
    toHexString [0x00, 0x0F, 0xF0, 0xFF] = "000ff0ff" ∧ toHexString [] = "" ∧
    readDigest ("a9993e364706816aba3e25717850c26c9cd0d89").toList = none := by decide
-- R58, R59: a text, bytes, a comment, the pseudo-instructions.
theorem test_assemble :
    assembleLine ("ABSORB " ++ "\"a;b\" ; text").toList = some [.absorb [0x61, 0x3B, 0x62]] ∧
    assembleLine "ABSORB 61 62 63".toList = some [.absorb [0x61, 0x62, 0x63]] ∧
    assembleLine "ABSORB.NULL 5 ; CNT 5".toList = some [.absorbNull 5] ∧
    assembleLine "ABSORB.REP 61, 3".toList = some [.absorb [0x61, 0x61, 0x61]] ∧
    assembleLine "NOP".toList = some [.absorb []] ∧
    assembleLine "HASH.SHA1 61".toList = some [.initSha1, .absorb [0x61], .final] ∧
    assembleLine "; nothing".toList = some [] ∧ assembleLine "init.sha1".toList = none := by
  decide +kernel

/-! ### Witnesses: a state and operands that meet the hypotheses of each statement -/

-- EncodedCommandDecodesToItself: both ends of CNT, with and without a payload.
theorem witness_encoded :
    Instr.wf (.absorb []) = true ∧ Instr.wf (.absorb [0xFF, 0x00]) = true ∧
    Instr.wf (.absorbNull 0) = true ∧ Instr.wf (.absorbNull 0x7FFFFFF) = true := by decide
-- DecodedCommandEncodesToItsBytes and StepRunsTheDecodedCommand.
theorem witness_decoded :
    decode (withCmd [0x28, 0, 0, 1, 0x61, 0x30] State.reset).cmd = .instr (.absorb [0x61]) [0x30] := by
  decide
-- AbsorbHeadersCarryTheirOperands, CNT = 0 and the largest CNT of each form.
theorem witness_absorb_headers :
    headerNumber 0x20 0 0 0 = 0x20000000 ∧
    (0x20000000 ≤ headerNumber 0x27 0xFF 0xFF 0xFF ∧ headerNumber 0x27 0xFF 0xFF 0xFF < 0x28000000) ∧
    headerNumber 0x28 0 0 0 = 0x28000000 ∧
    (headerNumber 0x2F 0xFF 0xFF 0xFF < 0x30000000 ∧
      headerNumber 0x2F 0xFF 0xFF 0xFF - 0x28000000 ≤ (List.replicate (2 ^ 27 - 1) (0 : Byte)).length) := by
  simp only [List.length_replicate]; decide
-- CutShortStreamHasNoStep, its three cases: one and three header bytes, one payload byte missing.
theorem witness_cut_short :
    State.reset.cmd = [] ∧ (withCmd [0x28] State.reset).cmd.length < 4 ∧
    (withCmd [0x28, 0, 0] State.reset).cmd ≠ [] ∧ (withCmd [0x28, 0, 0] State.reset).cmd.length < 4 ∧
    (0x28000000 ≤ headerNumber 0x28 0 0 1 ∧ headerNumber 0x28 0 0 1 < 0x30000000 ∧
      ([] : List Byte).length < headerNumber 0x28 0 0 1 - 0x28000000) := by decide
-- PlacedTableWordRunsNext, with and without payload bytes among the table's bits.
theorem witness_table_word :
    decodeTableWord 32 0x28000001 = some (.absorb [0]) ∧
    decodeTableWord 48 0x626128000002 = some (.absorb [0x61, 0x62]) := by decide
-- IllegalHeadersAreExactlyTheReserved, a header with bytes after it.
theorem witness_illegal_rest :
    decode [0x30, 0, 0, 1, 0x61] = .illegal .finalReservedBits [0x61] := by decide
-- IllegalHeaderAnswersIllegalCommand: every kind of illegal header, first and last of a range.
theorem witness_illegal :
    IllegalHeader (headerNumber 0x00 0 0 0) ∧ IllegalHeader (headerNumber 0x0F 0xFF 0xFF 0xFF) ∧
    IllegalHeader (headerNumber 0x40 0 0 0) ∧ IllegalHeader (headerNumber 0xFF 0xFF 0xFF 0xFF) ∧
    IllegalHeader (headerNumber 0x10 0 0 2) ∧ IllegalHeader (headerNumber 0x1F 0xFF 0xFF 0xFF) ∧
    IllegalHeader (headerNumber 0x30 0 0 1) ∧ IllegalHeader (headerNumber 0x3F 0xFF 0xFF 0xFF) ∧
    (withCmd [0x30, 0, 0, 1] State.reset).cmd = 0x30 :: 0 :: 0 :: 1 :: [] := by decide
-- The ABSORB statements, AnyCutOfThePayloadIsTheSame, LongAbsorbIsOneAbsorb,
-- FinalDeliversRegistersBigEndian, StatusByCommandAndPhase: LEN at both ends.
theorem witness_accepting :
    (openA .sha1 0).phase = .accepting ∧ (openA .sha1 0).len.toNat = 0 ∧
    (openA .sha0 63).phase = .accepting ∧ (openA .sha0 63).len.toNat = 63 := by decide
-- AbsorbStoresOnlyAtTheWritePointer: the last 64 of 65 bytes stand; with one byte, 63 are untouched.
theorem witness_absorb_stores :
    (1 < (List.replicate 65 (0x61 : Byte)).length ∧ (List.replicate 65 (0x61 : Byte)).length ≤ 1 + 64) ∧
    (∀ k, k < [(0x61 : Byte)].length → ((openA .sha1 63).len.toNat + k) % 64 ≠ 62) := by
  refine ⟨by decide, fun k hk => ?_⟩
  have : k = 0 := by simpa using hk
  subst this; decide
-- AbsorbByteFlushesOnTheLastByte, both clauses where they meet.
theorem witness_absorb_byte :
    (openA .sha1 62).len.toNat < 63 ∧ (openA .sha1 63).len.toNat = 63 ∧
    (openA .sha1 63).phase = .accepting := by decide
-- OutsideAcceptingIsInvalidState: both phases, each command it speaks of.
theorem witness_outside :
    State.reset.phase ≠ .accepting ∧ closed.phase ≠ .accepting ∧
    Instr.final ≠ .initSha0 ∧ Instr.final ≠ .initSha1 ∧
    Instr.absorb [] ≠ .initSha0 ∧ Instr.absorbNull 5 ≠ .initSha1 := by decide
-- AbsorbNullIsNoOpOrInvalidArgument and NopHasNoEffect.
theorem witness_null :
    (openA .sha1 5).phase = .accepting ∧ (0 : BitVec 27) = 0 ∧ (1 : BitVec 27) ≠ 0 ∧
    BitVec.allOnes 27 ≠ 0 := by decide
-- InvalidArgumentHasOneCause: the cause, at the least length and the greatest, and a step that answers
-- 0x01.
theorem witness_invalid_argument_cause :
    (openA .sha1 3).phase = .accepting ∧
    decode [0x20, 0, 0, 1] = .instr (.absorbNull 1) [] ∧ (1 : BitVec 27) ≠ 0 ∧
    decode [0x27, 0xFF, 0xFF, 0xFF] = .instr (.absorbNull (BitVec.allOnes 27)) [] := by decide
theorem witness_invalid_argument :
    step (withCmd [0x20, 0, 0, 5] (openA .sha1 3)) = .next { openA .sha1 3 with resp := [0x01] } :=
  rfl
-- FinalWithOneBlock at LEN 0 and 55; FinalWithTwoBlocks at LEN 56 and 63.
theorem witness_final :
    (openA .sha1 0).len.toNat ≤ 55 ∧ (openA .sha1 55).len.toNat = 55 ∧
    (openA .sha1 56).len.toNat = 56 ∧ (openA .sha1 63).len.toNat = 63 ∧
    (openA .sha1 55).phase = .accepting ∧ (openA .sha1 56).phase = .accepting := by decide
-- WritePointerOutsideBufFaults, at LEN 64 and 127.
theorem witness_write_pointer :
    ({ openA .sha1 0 with len := 64 } : State).phase = .accepting ∧
    64 ≤ ({ openA .sha1 0 with len := 64 } : State).len.toNat ∧
    64 ≤ ({ openA .sha1 0 with len := 127 } : State).len.toNat := by decide
-- ParseIsBigEndian, CompressionRunsEightyRounds, ScheduleFollowsTheRecurrence.
theorem witness_block :
    countingBlock.length = 64 ∧ (parse countingBlock).length = 16 ∧ abcWords.length = 16 := by decide
-- RotationFollowsTheFormula, RoundFunctionsBitByBit, RoundSelectionByRange: both ends of each range.
theorem witness_ranges :
    (0 < 32 ∧ 31 < 32) ∧ (0 < 20 ∧ 19 < 20) ∧ (20 ≤ 20 ∧ 39 < 40) ∧ (40 ≤ 40 ∧ 59 < 60) ∧
    (60 ≤ 60 ∧ 79 < 80) := by decide
-- ConstantWordBlocksIgnoreTheVariant: a block with words of both kinds.
theorem witness_constant_words :
    (List.replicate 4 (0xFF : Byte) ++ List.replicate 60 0).length = 64 ∧
    ∀ t, t < 16 → (parse (List.replicate 4 (0xFF : Byte) ++ List.replicate 60 0)).getD t 0 = 0 ∨
      (parse (List.replicate 4 (0xFF : Byte) ++ List.replicate 60 0)).getD t 0 = 0xFFFFFFFF := by
  decide +kernel
-- LengthFieldIsTheLastTwoWords.
theorem witness_length_field : (List.replicate 56 (0x61 : Byte)).length = 56 := by decide
-- EveryStepKeepsTheInvariant, InvariantExcludesFaults, EveryStepWritesOneResponse,
-- TraceInfluencesNothing: a step from a state inside a computation.
theorem witness_step :
    EngineInv (withCmd [0x28, 0, 0, 1, 0x61] (openA .sha1 3)) ∧
    (got (fun t => t.resp) (step (withCmd [0x28, 0, 0, 1, 0x61] (openA .sha1 3))) = some [0x00]) := by
  decide
-- EveryStepWritesOneResponse, the clause with a digest: a FINAL on the stream.
theorem witness_final_step :
    decode (withCmd [0x30, 0, 0, 0] (openA .sha1 3)).cmd = .instr .final [] ∧
    got (fun t => t.resp.length) (step (withCmd [0x30, 0, 0, 0] (openA .sha1 3))) = some 21 := by
  decide +kernel
-- FaultedCommandChangesNothing: a command that faults, and an illegal header.
theorem witness_faulted :
    step (withCmd [0x30, 0, 0, 0] State.reset) = .next { State.reset with resp := [0x02] } ∧
    step (withCmd [0x30, 0, 0, 1] State.reset) = .next { State.reset with resp := [0x03] } :=
  ⟨rfl, rfl⟩
-- StatusByCommandAndPhase, its phases other than Accepting.
theorem witness_phases : State.reset.phase = .idle ∧ closed.phase = .finalized := by decide
-- InitLeavesTheBuffer, PhaseTransitions, OnlyInitAndCompressChangeRegisters: a next state, VARIANT and H changed.
theorem witness_exec :
    got (fun t => (t.phase, decide (t.variant ≠ State.reset.variant), decide (t.h ≠ State.reset.h)))
      (exec .initSha1 State.reset) = some (.accepting, true, true) := by decide
-- InitForgetsTheOldComputation: two states with the same streams and different computations.
theorem witness_init_forgets :
    (openA .sha1 3).cmd = closed.cmd ∧ (openA .sha1 3).resp = closed.resp ∧
    (openA .sha1 3).traceEn = closed.traceEn ∧ (openA .sha1 3).trace = closed.trace ∧
    (openA .sha1 3).traceCtr = closed.traceCtr ∧ (openA .sha1 3).freeCtr = closed.freeCtr ∧
    (openA .sha1 3).buf ≠ closed.buf := by decide
-- StaleBytesInfluenceNothing: two states that differ in a stale byte.
theorem witness_stale :
    SameButStale (openA .sha1 3) { openA .sha1 3 with buf := Buf.write (openA .sha1 3).buf 3 0x99 } ∧
    Buf.write (openA .sha1 3).buf 3 0x99 ≠ (openA .sha1 3).buf := by decide
-- TraceInfluencesNothing: the side channel on in one state and off in the other.
theorem witness_trace :
    SameButTrace (openA .sha1 3) { openA .sha1 3 with traceEn := true, trace := [1], traceCtr := 7 } ∧
    (openA .sha1 3).traceEn = false := by decide
-- EngineStandsForTheMessage and FinalDeliversTheDigestOfTheMessage: a message within one block, and
-- one with a whole block before.
theorem witness_represents : Represents .sha1 (List.replicate 3 0x61) (openA .sha1 3) := by decide
theorem witness_represents_block :
    Represents .sha1 (List.replicate 65 0x61)
      { openWith .sha1 (compressFn .sha1 initialH (List.replicate 64 0x61)) [0x61] with
        totbits := 512, blkcnt := 1 } := by decide +kernel
-- DigestDependsOnVariantAndMessageOnly: commands that absorb, of both forms.
theorem witness_digest :
    ∀ i ∈ [Instr.absorb [0x61], .absorbNull 0, .absorbNull 5, .absorb []],
      i ≠ .initSha0 ∧ i ≠ .initSha1 ∧ i ≠ .final := by decide
-- EnginesShareNothing: two engines, a step of each.
theorem witness_engines :
    stepEngine 0 [withCmd [0x10, 0, 0, 1] State.reset, withCmd [0x20, 0, 0, 0] closed] =
      some (.next [respond .ok [] (construct .sha1 State.reset), withCmd [0x20, 0, 0, 0] closed]) ∧
    stepEngine 1 [respond .ok [] (construct .sha1 State.reset), withCmd [0x20, 0, 0, 0] closed] =
      some (.next [respond .ok [] (construct .sha1 State.reset), { closed with resp := [0x02] }]) ∧
    (0 : Nat) ≠ 1 := ⟨rfl, rfl, by decide⟩
-- HexWritesTwoCharactersAByte and HexReadsBack.
theorem witness_hex :
    1 < [(0xDA : Byte), 0x39].length ∧ (List.replicate 20 (0xAB : Byte)).length = 20 ∧
    (List.replicate 39 'a').length ≠ 40 ∧ (List.replicate 41 'a').length ≠ 40 := by decide

end Sys2Proof.Tests
end

/-! PROOFS. What an INIT leaves behind (10_state.md R27). -/

namespace Sys2Proof.Machine

theorem exec_initSha0 (s : State) :
    exec .initSha0 s = .next (respond .ok [] (construct .sha0 s)) := rfl

theorem exec_initSha1 (s : State) :
    exec .initSha1 s = .next (respond .ok [] (construct .sha1 s)) := rfl

/-- The response of an INIT disturbs none of the values `construct` wrote. -/
theorem freshState_respond_construct (st : Status) (out : List Byte) (v : Variant) (s : State) :
    FreshState s (respond st out (construct v s)) := by
  simp [FreshState, initialH]

/-- `construct` touches neither stream nor the trace, so the response it is followed by is one to the
state before it. -/
theorem responded_respond_construct (st : Status) (out : List Byte) (v : Variant) (s : State) :
    Responded st.code out s (respond st out (construct v s)) :=
  responded_respond st out (construct v s)

/-- Settles O10: both INITs are `construct` of their variant and one response. -/
theorem initWritesTheFreshState : Obligations.InitWritesTheFreshState := fun s =>
  ⟨⟨_, exec_initSha0 s, by simp, freshState_respond_construct .ok [] .sha0 s,
      responded_respond_construct .ok [] .sha0 s⟩,
    ⟨_, exec_initSha1 s, by simp, freshState_respond_construct .ok [] .sha1 s,
      responded_respond_construct .ok [] .sha1 s⟩⟩

end Sys2Proof.Machine

/-! PROOFS. The response every command ends with (30_encoding.md R55 to R57). -/

namespace Sys2Proof.Machine

/-- Only OK has the status byte that R55 asks for before a digest (R57). -/
theorem Status.code_eq_zero_iff (st : Status) : st.code = 0x00 ↔ st = .ok := by
  cases st <;> decide

theorem Status.code_range (st : Status) :
    st.code = 0x00 ∨ st.code = 0x01 ∨ st.code = 0x02 ∨ st.code = 0x03 := by
  cases st <;> decide

@[simp] theorem length_serialize (h : Regs) : (serialize h).length = 20 := rfl

/-- Absorbing bytes, by itself, answers nothing. -/
theorem absorbBytes_resp {data : List Byte} {s u : State} (h : absorbBytes data s = .ok u) :
    u.resp = s.resp := by
  obtain ⟨_, rfl⟩ | ⟨_, A⟩ := absorbBytes_cases data s u h
  · rfl
  · exact A.resp

/-- The padding sequence, by itself, answers nothing. -/
theorem finalize_resp {s u : State} (h : finalize s = .ok u) : u.resp = s.resp := by
  obtain ⟨_, _, _, _, P⟩ := finalize_cases s u h
  exact P.resp

/-- From `s` to `t` one response was written: OK and the digest of `t`, which only a FINAL can answer,
or a status byte alone, which from a FINAL is not OK (R55). -/
def OneResponse (isFinal : Prop) (s t : State) : Prop :=
  (isFinal ∧ t.resp = s.resp ++ Status.ok.code :: serialize t.h) ∨
  ∃ st : Status, (isFinal → st ≠ .ok) ∧ t.resp = s.resp ++ [st.code]

/-- Every command that answers writes one response. -/
theorem exec_oneResponse {i : Instr} {s t : State} (h : exec i s = .next t) :
    OneResponse (i = .final) s t := by
  obtain ⟨rfl, rfl⟩ | ⟨rfl, rfl⟩ | ⟨data, u, rfl, _, hu, rfl⟩ | ⟨rfl, _, rfl⟩ | ⟨cnt, rfl, _, _, rfl⟩ |
    ⟨rfl, _, u, hu, rfl⟩ | ⟨_, _, _, rfl⟩ := exec_cases i s t h
  · exact .inr ⟨.ok, nofun, by simp⟩
  · exact .inr ⟨.ok, nofun, by simp⟩
  · exact .inr ⟨.ok, nofun, by simp [absorbBytes_resp hu]⟩
  · exact .inr ⟨.ok, nofun, by simp⟩
  · exact .inr ⟨.invalidArgument, nofun, by simp⟩
  · exact .inl ⟨rfl, by simp [finalize_resp hu]⟩
  · exact .inr ⟨.invalidState, fun _ => nofun, by simp⟩

/-- Every step that answers writes one response; an illegal header's is a status byte alone. -/
theorem step_oneResponse {s t : State} (h : step s = .next t) :
    OneResponse (∃ rest, decode s.cmd = .instr .final rest) s t := by
  obtain ⟨i, rest, hd, hs⟩ | ⟨why, rest, hd, hs⟩ | ⟨_, _, r, hs⟩ := step_cases s <;> rw [hs] at h
  · have hfinal : (∃ rest, decode s.cmd = .instr .final rest) ↔ i = .final := by simp [hd]
    simpa only [OneResponse, hfinal, consume_resp] using exec_oneResponse h
  · cases h
    exact .inr ⟨.illegalCommand, fun _ => nofun, by simp⟩
  · cases h

/-- Settles O38: the two shapes of a response, told apart by the command and the status byte. -/
theorem everyStepWritesOneResponse : Obligations.EveryStepWritesOneResponse := by
  intro s t h
  obtain ⟨hfinal, hresp⟩ | ⟨st, hst, hresp⟩ := step_oneResponse h
  · exact ⟨_, _, hresp, Status.code_range .ok, fun _ => ⟨length_serialize t.h, rfl⟩,
      fun hno => absurd ⟨rfl, hfinal⟩ hno⟩
  · refine ⟨_, _, hresp, Status.code_range st, fun ⟨hok, hfinal⟩ => ?_, fun _ => rfl⟩
    exact absurd ((Status.code_eq_zero_iff st).mp hok) (hst hfinal)

end Sys2Proof.Machine

/-! PROOFS. One byte of a payload, and any cut of a payload (41_absorb.md R69, R73). -/

namespace Sys2Proof.Machine

/-- The buffer that the 64th byte fills is the partial block and that byte. -/
theorem readBytes_storeByte_full (x : Byte) (s : State) (h : s.len.toNat = 63) :
    Buf.readBytes (storeByte x s).buf 0 64 = partialBlock s ++ [x] := by
  have hend := readBytes_write_end s.buf s.len.toNat x
  rwa [show s.len.toNat + 1 = 64 by omega] at hend

/-- Settles O15: the byte is stored, and where it is the 64th the full block is flushed. -/
theorem absorbByteFlushesOnTheLastByte : Obligations.AbsorbByteFlushesOnTheLastByte := by
  intro x s _ hl
  obtain hlt | h63 : s.len.toNat < 63 ∨ s.len.toNat = 63 := by omega
  · have hlen : (storeByte x s).len.toNat = s.len.toNat + 1 := toNat_len_succ _ (by omega)
    exact ⟨storeByte x s, absorbByte_store x s hlt, by omega, Buf.read_write _ _ _,
      fun _ => ⟨hlen, rfl, rfl, rfl⟩, fun _ => by omega, rfl, rfl, rfl, rfl, rfl, rfl, rfl, rfl⟩
  · have hh : (flush (storeByte x s)).h = compressFn s.variant s.h (partialBlock s ++ [x]) := by
      rw [flush_h, readBytes_storeByte_full x s h63, storeByte_variant, storeByte_h]
    exact ⟨flush (storeByte x s), absorbByte_flush x s h63, by simp, Buf.read_write _ _ _,
      fun _ => by omega, fun _ => ⟨rfl, hh, BitVec.toNat_add _ _, rfl⟩,
      rfl, rfl, rfl, rfl, rfl, rfl, rfl, rfl⟩

theorem SameEngine.symm {s t : State} (h : SameEngine s t) : SameEngine t s := by
  obtain ⟨hp, hv, hh, ht, hb, hl, hc⟩ := h
  exact ⟨hp.symm, hv.symm, hh.symm, ht.symm, hb.symm, hl.symm, hc.symm⟩

theorem SameEngine.trans {s t u : State} (h : SameEngine s t) (h' : SameEngine t u) :
    SameEngine s u := by
  obtain ⟨hp, hv, hh, ht, hb, hl, hc⟩ := h
  obtain ⟨hp', hv', hh', ht', hb', hl', hc'⟩ := h'
  exact ⟨hp.trans hp', hv.trans hv', hh.trans hh', ht.trans ht', hb.trans hb', hl.trans hl',
    hc.trans hc'⟩

/-- `absorb_byte` reads and writes the engine's own fields only. -/
theorem absorbByte_sameEngine (x : Byte) {s s' : State} (h : SameEngine s s')
    (hl : s.len.toNat < 64) :
    ∃ t t', absorbByte x s = .ok t ∧ absorbByte x s' = .ok t' ∧ SameEngine t t' ∧
      t.len.toNat < 64 := by
  obtain ⟨hp, hv, hh, ht, hb, hlen, hc⟩ := h
  obtain hlt | h63 : s.len.toNat < 63 ∨ s.len.toNat = 63 := by omega
  · refine ⟨_, _, absorbByte_store x s hlt, absorbByte_store x s' (hlen ▸ hlt), ?_, ?_⟩
    · simp [SameEngine, hp, hv, hh, ht, hb, hlen, hc]
    · rw [storeByte_len, toNat_len_succ _ hl]; omega
  · refine ⟨_, _, absorbByte_flush x s h63, absorbByte_flush x s' (hlen ▸ h63), ?_, by simp⟩
    simp [SameEngine, hp, hv, hh, ht, hb, hlen, hc]

/-- Equal engines absorb a payload to equal engines. -/
theorem absorbBytes_sameEngine (data : List Byte) : ∀ {s s' : State}, SameEngine s s' →
    s.len.toNat < 64 →
    ∃ t t', absorbBytes data s = .ok t ∧ absorbBytes data s' = .ok t' ∧ SameEngine t t' := by
  induction data with
  | nil => exact fun {s s'} h _ => ⟨s, s', rfl, rfl, h⟩
  | cons x xs ih =>
    intro s s' h hl
    obtain ⟨a, a', ha, ha', hsame, hroom⟩ := absorbByte_sameEngine x h hl
    obtain ⟨t, t', ht, ht', hsame'⟩ := ih hsame hroom
    exact ⟨t, t', by simp only [absorbBytes, ha, ht], by simp only [absorbBytes, ha', ht'], hsame'⟩

/-- ABSORB in phase Accepting, from what `absorbBytes` gives. -/
theorem exec_absorb_ok {data : List Byte} {s t : State} (hp : s.phase = .accepting)
    (ht : absorbBytes data s = .ok t) : exec (.absorb data) s = .next (respond .ok [] t) := by
  show execAbsorb data s = _
  simp only [execAbsorb, (accepting_iff s).mpr hp, if_true, ht]

/-- What a payload leaves behind is ready for the next one. -/
theorem absorbBytes_accepting {data : List Byte} {s t : State} (hp : s.phase = .accepting)
    (hl : s.len.toNat < 64) (ht : absorbBytes data s = .ok t) :
    t.phase = .accepting ∧ t.len.toNat < 64 := by
  obtain ⟨_, rfl⟩ | ⟨_, A⟩ := absorbBytes_cases data s t ht
  · exact ⟨hp, hl⟩
  · exact ⟨A.phase.trans hp, A.len ▸ Nat.mod_lt _ (by decide)⟩

/-- One ABSORB per chunk leaves the engine that absorbing all the bytes at once leaves: the responses
between the chunks are none of the engine's fields. -/
theorem execList_absorb_sameEngine (chunks : List (List Byte)) : ∀ {s s' : State},
    SameEngine s s' → s.phase = .accepting → s.len.toNat < 64 →
    ∃ t u, execList (chunks.map Instr.absorb) s = .next t ∧
      absorbBytes chunks.flatten s' = .ok u ∧ SameEngine t u ∧
      t.phase = .accepting ∧ t.len.toNat < 64 := by
  induction chunks with
  | nil => exact fun {s s'} h hp hl => ⟨s, s', rfl, rfl, h, hp, hl⟩
  | cons c cs ih =>
    intro s s' h hp hl
    obtain ⟨a, a', ha, ha', hsame⟩ := absorbBytes_sameEngine c h hl
    obtain ⟨hpa, hla⟩ := absorbBytes_accepting hp hl ha
    have hresp : SameEngine (respond .ok [] a) a' := (sameEngine_respond .ok [] a).symm.trans hsame
    obtain ⟨t, u, ht, hu, hrest⟩ := ih hresp (by simpa using hpa) (by simpa using hla)
    refine ⟨t, u, ?_, ?_, hrest⟩
    · simp only [List.map_cons, execList, exec_absorb_ok hp ha, ht]
    · simp only [List.flatten_cons, absorbBytes_append, ha', hu]

/-- The registers after the padding sequence are a function of the engine's own fields (R101). -/
theorem finalize_sameEngine {s s' : State} (h : SameEngine s s') (hl : s.len.toNat < 64) :
    ∃ t t', finalize s = .ok t ∧ finalize s' = .ok t' ∧ t.h = t'.h := by
  obtain ⟨-, hv, hh, ht, hb, hlen, -⟩ := h
  obtain h55 | h56 : s.len.toNat < 56 ∨ 56 ≤ s.len.toNat := by omega
  · have hblock : oneBlock s = oneBlock s' := by
      simp only [oneBlock, partialBlock, messageBits, ht, hb, hlen]
    obtain ⟨t, hfin, P⟩ := finalize_one_padded s h55
    obtain ⟨t', hfin', P'⟩ := finalize_one_padded s' (hlen ▸ h55)
    exact ⟨t, t', hfin, hfin', by rw [P.h, P'.h, hv, hh, hblock]⟩
  · have hfirst : firstBlock s = firstBlock s' := by
      simp only [firstBlock, partialBlock, hb, hlen]
    have hsecond : secondBlock s = secondBlock s' := by
      simp only [secondBlock, messageBits, ht, hlen]
    obtain ⟨t, hfin, P⟩ := finalize_two_padded s hl h56
    obtain ⟨t', hfin', P'⟩ := finalize_two_padded s' (hlen ▸ hl) (hlen ▸ h56)
    exact ⟨t, t', hfin, hfin', by rw [P.h, P'.h, hv, hh, hfirst, hsecond]⟩

/-- A FINAL on equal engines answers the same digest bytes. -/
theorem exec_final_sameDigest {s s' : State} (h : SameEngine s s') (hp : s.phase = .accepting)
    (hl : s.len.toNat < 64) :
    ∃ t t' out, exec .final s = .next t ∧ exec .final s' = .next t' ∧
      t.resp = s.resp ++ 0x00 :: out ∧ t'.resp = s'.resp ++ 0x00 :: out := by
  obtain ⟨a, a', ha, ha', hreg⟩ := finalize_sameEngine h hl
  have hp' : s'.phase = .accepting := h.left.symm.trans hp
  refine ⟨_, _, serialize a.h, execFinal_ok hp ha, execFinal_ok hp' ha', ?_, ?_⟩
  · rw [respond_resp, finalize_resp ha]; rfl
  · rw [respond_resp, finalize_resp ha', hreg]; rfl

/-- Settles O16: by induction on the chunks, with the responses between them outside the engine. -/
theorem anyCutOfThePayloadIsTheSame : Obligations.AnyCutOfThePayloadIsTheSame := by
  intro s chunks hp hl
  have hself : SameEngine s s := ⟨rfl, rfl, rfl, rfl, rfl, rfl, rfl⟩
  obtain ⟨t, u, ht, hu, hsame, hpt, hlt⟩ := execList_absorb_sameEngine chunks hself hp hl
  have hresp : SameEngine t (respond .ok [] u) := hsame.trans (sameEngine_respond .ok [] u)
  have hnull : exec (.absorbNull 0) t = .next (respond .ok [] t) := by
    show execAbsorbNull 0 t = _
    rw [execAbsorbNull_eq, if_pos hpt, if_pos rfl]
  exact ⟨t, _, ht, exec_absorb_ok hp hu, hresp, ⟨_, hnull, sameEngine_respond .ok [] t⟩,
    exec_final_sameDigest hresp hpt hlt⟩

end Sys2Proof.Machine

/-! PROOFS. The compression function: parse, schedule, round selection and rounds (42_compress.md). -/

namespace Sys2Proof.Machine

/-- Settles O26: every word of the parse is the `be32` of its four bytes. -/
theorem parseIsBigEndian : Obligations.ParseIsBigEndian := by
  intro block hlen
  refine ⟨length_parse 16 block hlen, fun t ht => ?_⟩
  rw [getD_parse t block (by omega), toNat_be32]

/-- The rotation amount of each variant (R81). -/
theorem Variant.rotation_eq_ite (v : Variant) : v.rotation = if v = .sha1 then 1 else 0 := by
  cases v <;> rfl

/-- Either rotation amount is one that `rotl32` admits (R10). -/
theorem Variant.rotation_lt (v : Variant) : v.rotation < 32 := by
  cases v <;> decide

/-- The words of the parse stand at the front of the schedule (R80). -/
theorem getD_schedule_of_lt (r : Nat) {words : List Word} {i : Nat} (hi : i < words.length) :
    (schedule r words).getD i 0 = words.getD i 0 := by
  obtain ⟨rest, hrest⟩ := prefix_schedule r words
  rw [← hrest, List.getD_append _ _ _ _ hi]

/-- Settles O27: the first words are a prefix of the schedule, the others come by `getD_schedule`. -/
theorem scheduleFollowsTheRecurrence : Obligations.ScheduleFollowsTheRecurrence := by
  intro v words hw
  refine ⟨by rw [length_schedule, hw], fun i hi => ?_, fun i hlo hhi => ?_⟩
  · exact getD_schedule_of_lt v.rotation (hw ▸ hi)
  · rw [← v.rotation_eq_ite, ← rotl32_eq_rotateLeft _ _ v.rotation_lt]
    exact getD_schedule v.rotation words hw i hlo hhi

/-- R86. -/
theorem choice_eq (b c d : Word) : choice b c d = (b &&& c ||| ~~~b &&& d) := rfl

/-- R87. -/
theorem parity_eq (b c d : Word) : parity b c d = b ^^^ c ^^^ d := rfl

/-- R88. -/
theorem majority_eq (b c d : Word) : majority b c d = (b &&& c ||| b &&& d ||| c &&& d) := rfl

/-- Settles O30: in each range the guards of `roundF` and `roundK` take one branch. -/
theorem roundSelectionByRange : Obligations.RoundSelectionByRange := by
  intro i b c d
  refine ⟨fun h20 => ?_, fun h20 h40 => ?_, fun h40 h60 => ?_, fun h60 _ => ?_⟩
  · simp [roundF, roundK, h20, choice_eq]
  · simp [roundF, roundK, h20.not_gt, h40, parity_eq]
  · have h20 : ¬ i < 20 := by omega
    simp [roundF, roundK, h20, h40.not_gt, h60, majority_eq]
  · have h20 : ¬ i < 20 := by omega
    have h40 : ¬ i < 40 := by omega
    simp [roundF, roundK, h20, h40, h60.not_gt, parity_eq]

/-- The working variables after the first `n` rounds over the schedule words `ws`, from `v` (R89). -/
def workingAfter (ws : List Word) (v : Working) (n : Nat) : Working := roundsFrom 0 (ws.take n) v

@[simp] theorem workingAfter_zero (ws : List Word) (v : Working) : workingAfter ws v 0 = v := by
  rw [workingAfter, List.take_zero, roundsFrom]

/-- Round `n` reads schedule word `n` and the values the rounds before it left (R89). -/
theorem workingAfter_succ {ws : List Word} (v : Working) {n : Nat} (hn : n < ws.length) :
    workingAfter ws v (n + 1) = roundStep n (ws.getD n 0) (workingAfter ws v n) := by
  have hlen : (ws.take n).length = n := List.length_take_of_le hn.le
  rw [workingAfter, List.take_succ_eq_append_getElem hn, roundsFrom_append, hlen,
    List.getD_eq_getElem _ _ hn, Nat.zero_add]
  rfl

/-- With one round for each schedule word, all of them are done. -/
theorem workingAfter_length (ws : List Word) (v : Working) :
    workingAfter ws v ws.length = roundsFrom 0 ws v := by
  rw [workingAfter, List.take_length]

/-- `temp` in numbers: the five summands are added modulo 2^32 (R89). -/
theorem toNat_roundTemp (i : Nat) (w : Word) (v : Working) :
    (roundTemp i w v).toNat = ((BitVec.rotateLeft v.a 5).toNat + (roundF i v.b v.c v.d).toNat +
      v.e.toNat + (roundK i).toNat + w.toNat) % 2 ^ 32 := by
  rw [roundTemp, rotl32_eq_rotateLeft _ _ (by decide)]
  simp only [add32, BitVec.toNat_add, Nat.mod_add_mod]

/-- VARIANT is used for its rotation amount only (R81). -/
theorem compressFn_eq_compressWith (v : Variant) (h : Regs) (block : List Byte) :
    compressFn v h block = compressWith v.rotation h block := by
  cases v <;> rfl

/-- Settles O31: the values are those after each round; the 80 rounds are one for each schedule word. -/
theorem compressionRunsEightyRounds : Obligations.CompressionRunsEightyRounds := by
  intro v h block hblock
  have hlen : (schedule v.rotation (parse block)).length = 80 := by
    rw [length_schedule, length_parse 16 block hblock]
  refine ⟨workingAfter (schedule v.rotation (parse block)) (load h), workingAfter_zero _ _,
    fun i hi => ?_, ?_⟩
  · rw [workingAfter_succ _ (hlen ▸ hi)]
    exact ⟨toNat_roundTemp _ _ _, rfl, rotl32_eq_rotateLeft _ 30 (by decide), rfl, rfl⟩
  · have hall := workingAfter_length (schedule v.rotation (parse block)) (load h)
    rw [hlen] at hall
    rw [compressFn_eq_compressWith, compressWith, ← hall]
    rfl

end Sys2Proof.Machine

/-! PROOFS. Bytes and characters written in groups of one size: the digest bytes (44_digest.md R103)
and their hexadecimal rendering (R105). -/

namespace Sys2Proof.Machine

/-- Where every element gives `n` elements, the one at `k` of those of element `j` stands at
`n * j + k`. -/
theorem getD_flatMap_of_length {α β : Type} {f : α → List β} {n : Nat} (hf : ∀ x, (f x).length = n)
    (d : β) (e : α) (xs : List α) : ∀ {j k : Nat}, j < xs.length → k < n →
    (xs.flatMap f).getD (n * j + k) d = (f (xs.getD j e)).getD k d := by
  induction xs with
  | nil => intro j k hj _; simp at hj
  | cons x xs ih =>
    intro j k hj hk
    rw [List.flatMap_cons]
    cases j with
    | zero => rw [Nat.mul_zero, Nat.zero_add, List.getD_append _ _ _ _ (by rw [hf]; exact hk),
        List.getD_cons_zero]
    | succ j =>
      have hpos : n * (j + 1) + k = n + (n * j + k) := by rw [Nat.mul_succ]; omega
      rw [List.getD_append_right _ _ _ _ (by rw [hf]; omega), hf, hpos, Nat.add_sub_cancel_left,
        List.getD_cons_succ]
      exact ih (Nat.lt_of_succ_lt_succ hj) hk

/-- Bits `lo` to `lo + 7` of a word, as a number. -/
theorem toNat_byteOf (x : Word) (lo : Nat) :
    (x.extractLsb' lo 8).toNat = x.toNat / 2 ^ lo % 256 := by
  rw [BitVec.extractLsb'_toNat, Nat.shiftRight_eq_div_pow]

/-- Byte `k` of a word is its bits 31 - 8k to 24 - 8k (R10). -/
theorem toNat_getD_bytesBe32 (x : Word) {k : Nat} (hk : k < 4) :
    ((bytesBe32 x).getD k 0).toNat = x.toNat / 2 ^ (24 - 8 * k) % 256 := by
  match k, hk with
  | 0, _ => exact toNat_byteOf x 24
  | 1, _ => exact toNat_byteOf x 16
  | 2, _ => exact toNat_byteOf x 8
  | 3, _ => exact toNat_byteOf x 0

/-- The digest bytes are those of the five registers in order (R103). -/
theorem serialize_eq_flatMap (h : Regs) :
    serialize h = [h.h0, h.h1, h.h2, h.h3, h.h4].flatMap bytesBe32 := rfl

/-- Byte `4j + k` of the digest is byte `k` of register `j` (R103). -/
theorem toNat_getD_serialize (h : Regs) {j k : Nat} (hj : j < 5) (hk : k < 4) :
    ((serialize h).getD (4 * j + k) 0).toNat =
      (([h.h0, h.h1, h.h2, h.h3, h.h4] : List Word).getD j 0).toNat / 2 ^ (24 - 8 * k) % 256 := by
  rw [serialize_eq_flatMap, getD_flatMap_of_length length_bytesBe32 0 0 _ hj hk,
    toNat_getD_bytesBe32 _ hk]

/-- Settles O24: the response is the serialised registers of the padded state, which it leaves. -/
theorem finalDeliversRegistersBigEndian : Obligations.FinalDeliversRegistersBigEndian := by
  intro s hp hl
  obtain ⟨u, -, -, -, hu, -, -⟩ := finalize_next s hl
  refine ⟨_, serialize u.h, execFinal_ok hp hu, ?_, length_serialize u.h, fun j k hj hk => ?_⟩
  · rw [respond_resp, finalize_resp hu]; rfl
  · rw [respond_h]; exact toNat_getD_serialize u.h hj hk

/-- The two characters of a byte (R105). -/
def hexPair (x : Byte) : List Char := [hexDigit (x.extractLsb' 4 4), hexDigit (x.extractLsb' 0 4)]

@[simp] theorem length_hexPair (x : Byte) : (hexPair x).length = 2 := rfl

theorem toHexChars_eq_flatMap (bytes : List Byte) : toHexChars bytes = bytes.flatMap hexPair := by
  induction bytes with
  | nil => rfl
  | cons x xs ih => rw [toHexChars, ih]; rfl

@[simp] theorem toList_toHexString (bytes : List Byte) :
    (toHexString bytes).toList = toHexChars bytes := String.toList_ofList

theorem length_toHexChars (bytes : List Byte) : (toHexChars bytes).length = 2 * bytes.length := by
  induction bytes with
  | nil => rfl
  | cons x xs ih => rw [toHexChars, List.length_cons, List.length_cons, ih, List.length_cons]; omega

/-- The characters of byte `k` stand at `2k` and `2k + 1` (R105). -/
theorem getD_toHexChars {bytes : List Byte} {k i : Nat} (hk : k < bytes.length) (hi : i < 2) :
    (toHexChars bytes).getD (2 * k + i) ' ' = (hexPair (bytes.getD k 0)).getD i ' ' := by
  rw [toHexChars_eq_flatMap, getD_flatMap_of_length length_hexPair ' ' 0 bytes hk hi]

/-- A four-bit value has a character of its own, so what stands beside the alphabet is not looked at. -/
theorem hexDigit_eq_getD (n : BitVec 4) (d : Char) :
    hexDigit n = "0123456789abcdef".toList.getD n.toNat d := by
  have hn : n.toNat < hexAlphabet.length := n.isLt
  rw [hexDigit, show "0123456789abcdef".toList = hexAlphabet from rfl,
    List.getD_eq_getElem _ _ hn, List.getD_eq_getElem _ _ hn]

theorem toNat_highNibble (x : Byte) : (x.extractLsb' 4 4).toNat = x.toNat / 16 := by
  rw [BitVec.extractLsb'_toNat, Nat.shiftRight_eq_div_pow]
  have := x.isLt
  omega

theorem toNat_lowNibble (x : Byte) : (x.extractLsb' 0 4).toNat = x.toNat % 16 := by
  rw [BitVec.extractLsb'_toNat, Nat.shiftRight_zero]

/-- Settles O51: the text is the character pairs of the bytes one after another. -/
theorem hexWritesTwoCharactersAByte : Obligations.HexWritesTwoCharactersAByte := by
  intro bytes
  rw [toList_toHexString]
  refine ⟨length_toHexChars bytes, fun k hk => ⟨?_, ?_⟩⟩
  · rw [← toNat_highNibble, ← hexDigit_eq_getD]
    exact getD_toHexChars hk (i := 0) (by decide)
  · rw [← toNat_lowNibble, ← hexDigit_eq_getD]
    exact getD_toHexChars hk (i := 1) (by decide)

end Sys2Proof.Machine

/-! PROOFS. The message an engine stands for (20_memory.md R31), through INIT, the commands that absorb
and FINAL: the digest of the message absorbed (44_digest.md R107). -/

namespace Sys2Proof.Machine

/-- After an INIT the engine stands for the empty message (R64). -/
theorem represents_construct (v : Variant) (s : State) : Represents v [] (construct v s) :=
  ⟨rfl, rfl, rfl, rfl, rfl, rfl, rfl⟩

/-- The message stands in the engine's own fields, so engines that agree in them stand for the same. -/
theorem Represents.of_sameEngine {v : Variant} {msg : List Byte} {s t : State}
    (hs : Represents v msg s) (h : SameEngine s t) : Represents v msg t := by
  obtain ⟨hphase, hvariant, hh, htotbits, hbuf, hlen, hblkcnt⟩ := h
  simpa only [Represents, hphase, hvariant, hh, htotbits, hbuf, hlen, hblkcnt] using hs

/-- A response leaves the message as it is (R55). -/
theorem Represents.after_respond {v : Variant} {msg : List Byte} {s : State}
    (hs : Represents v msg s) (st : Status) (out : List Byte) :
    Represents v msg (respond st out s) :=
  hs.of_sameEngine (sameEngine_respond st out s)

theorem Represents.len_lt {v : Variant} {msg : List Byte} {s : State} (hs : Represents v msg s) :
    s.len.toNat < 64 := by
  obtain ⟨-, -, -, -, -, hlen, -⟩ := hs
  omega

/-- The bytes held are the message's after its whole blocks (R18, R31). -/
theorem Represents.partialBlock_eq {v : Variant} {msg : List Byte} {s : State}
    (hs : Represents v msg s) : partialBlock s = msg.drop (64 * (msg.length / 64)) := by
  obtain ⟨-, -, -, -, -, hlen, hheld⟩ := hs
  rw [partialBlock, hlen, hheld]

/-- TOTBITS and the bytes held count the bits of the whole message (R94). -/
theorem Represents.messageBits_eq {v : Variant} {msg : List Byte} {s : State}
    (hs : Represents v msg s) : messageBits s = BitVec.ofNat 64 (8 * msg.length) := by
  obtain ⟨-, -, -, htotbits, -, hlen, -⟩ := hs
  rw [messageBits, htotbits, hlen, ← BitVec.ofNat_add]
  congr 1
  omega

/-- Absorbing a payload appends it to the message (R70). -/
theorem Represents.absorbed {v : Variant} {msg data : List Byte} {s t : State}
    (hs : Represents v msg s) (A : Absorbed data s t) : Represents v (msg ++ data) t := by
  have hpart := hs.partialBlock_eq
  obtain ⟨hphase, hvariant, hh, htotbits, hblkcnt, hlen, -⟩ := hs
  have hblocks : (msg ++ data).length / 64 =
      msg.length / 64 + (s.len.toNat + data.length) / 64 := by
    rw [List.length_append, hlen]; omega
  have hrest : (msg ++ data).length % 64 = (s.len.toNat + data.length) % 64 := by
    rw [List.length_append, hlen]; omega
  have hheld : Buf.readBytes s.buf 0 s.len.toNat ++ data =
      (msg ++ data).drop (64 * (msg.length / 64)) := by
    rw [List.drop_append_of_le_length (by omega), ← hpart, partialBlock]
  refine ⟨A.phase.trans hphase, A.variant.trans hvariant, ?_, ?_, ?_, A.len.trans hrest.symm, ?_⟩
  · rw [A.h, hheld, hvariant, hh, hblocks, hashBlocks_add, hashBlocks_front _ _ msg data _ (by omega)]
  · rw [A.totbits, htotbits, hblocks, Nat.mul_add, BitVec.ofNat_add]
  · rw [A.blkcnt, hblkcnt, hblocks, BitVec.ofNat_add]
  · rw [hrest, A.held, hheld, List.drop_drop, hblocks, Nat.mul_add]

/-- A command that absorbs: neither an INIT nor a FINAL. -/
abbrev Absorbing (i : Instr) : Prop := i ≠ .initSha0 ∧ i ≠ .initSha1 ∧ i ≠ .final

/-- ABSORB.NULL does nothing but answer a status byte, in every phase (R71). -/
theorem execAbsorbNull_responds (cnt : BitVec 27) (s : State) :
    ∃ st, execAbsorbNull cnt s = .next (respond st [] s) := by
  rw [execAbsorbNull_eq]
  split
  · split
    · exact ⟨.ok, rfl⟩
    · exact ⟨.invalidArgument, rfl⟩
  · exact ⟨.invalidState, rfl⟩

/-- A command that absorbs appends its payload to the message and answers one status byte (R70, R71,
R114). -/
theorem Represents.exec_absorbing {v : Variant} {msg : List Byte} {s : State} {i : Instr}
    (hs : Represents v msg s) (hi : Absorbing i) :
    ∃ t code, exec i s = .next t ∧ Represents v (msg ++ encodePayload i) t ∧
      t.resp = s.resp ++ [code] := by
  have hphase : s.phase = .accepting := hs.left
  obtain ⟨h0, h1, hfinal⟩ := hi
  cases i with
  | initSha0 => exact absurd rfl h0
  | initSha1 => exact absurd rfl h1
  | final => exact absurd rfl hfinal
  | absorb data =>
    obtain ⟨u, hu, A⟩ := absorbBytes_ok data s hs.len_lt
    refine ⟨_, Status.ok.code, exec_absorb_ok hphase hu, (hs.absorbed A).after_respond .ok [], ?_⟩
    rw [respond_resp, A.resp]
  | absorbNull cnt =>
    obtain ⟨st, hst⟩ := execAbsorbNull_responds cnt s
    refine ⟨_, st.code, hst, ?_, respond_resp st [] s⟩
    rw [encodePayload, List.append_nil]
    exact hs.after_respond st []

/-- Commands that absorb append their payloads in order and answer one status byte each. -/
theorem Represents.execList_absorbing {v : Variant} (cmds : List Instr) :
    ∀ {msg : List Byte} {s : State}, Represents v msg s → (∀ i ∈ cmds, Absorbing i) →
    ∃ t codes, execList cmds s = .next t ∧ Represents v (msg ++ cmds.flatMap encodePayload) t ∧
      codes.length = cmds.length ∧ t.resp = s.resp ++ codes := by
  induction cmds with
  | nil => exact fun {msg s} hs _ => ⟨s, [], rfl, by simpa using hs, rfl, by simp⟩
  | cons i is ih =>
    intro msg s hs hcmds
    obtain ⟨hi, his⟩ := List.forall_mem_cons.mp hcmds
    obtain ⟨u, code, hu, hmsg, hresp⟩ := hs.exec_absorbing hi
    obtain ⟨t, codes, ht, hmsg', hlen, hresp'⟩ := ih hmsg his
    refine ⟨t, code :: codes, ?_, ?_, by simp [hlen], by simp [hresp', hresp]⟩
    · simp only [execList, hu, ht]
    · simpa using hmsg'

/-- The blocks that padding ends a message with, where `n` bytes of it are left over (R101). -/
def tailCount (n : Nat) : Nat := if n ≤ 55 then 1 else 2

/-- The bytes of those blocks: the bytes held and the padding (R101). -/
def tailBytes (s : State) : List Byte :=
  partialBlock s ++ 0x80 :: (List.replicate (padZeros s.len.toNat) 0 ++ bytesBe64 (messageBits s))

theorem tailBytes_eq_oneBlock {s : State} (h : s.len.toNat ≤ 55) : tailBytes s = oneBlock s := by
  have hzeros : padZeros s.len.toNat = 55 - s.len.toNat := by rw [padZeros]; omega
  rw [tailBytes, oneBlock, hzeros]

theorem tailBytes_eq_firstBlock_append {s : State} (h56 : 56 ≤ s.len.toNat)
    (hl : s.len.toNat < 64) : tailBytes s = firstBlock s ++ secondBlock s := by
  have hzeros : padZeros s.len.toNat = 63 - s.len.toNat + 56 := by rw [padZeros]; omega
  rw [tailBytes, firstBlock, secondBlock, hzeros, List.replicate_add]
  simp only [List.append_assoc, List.cons_append]

theorem length_oneBlock {s : State} (h : s.len.toNat ≤ 55) : (oneBlock s).length = 64 := by
  simp only [oneBlock, List.length_append, List.length_cons, List.length_replicate,
    length_partialBlock, length_bytesBe64]
  omega

theorem length_firstBlock {s : State} (hl : s.len.toNat < 64) : (firstBlock s).length = 64 := by
  simp only [firstBlock, List.length_append, List.length_cons, List.length_replicate,
    length_partialBlock]
  omega

theorem length_secondBlock (s : State) : (secondBlock s).length = 64 := by
  rw [secondBlock, List.length_append, List.length_replicate, length_bytesBe64]

/-- Both rows of R101 in one: FINAL folds the blocks of the bytes held and the padding into H. -/
theorem finalize_tail (s : State) (hl : s.len.toNat < 64) :
    ∃ t block, finalize s = .ok t ∧ Padded (tailCount s.len.toNat)
      (hashBlocks s.variant (tailCount s.len.toNat) (tailBytes s) s.h) block s t := by
  obtain ⟨t, n, h, block, ht, P, ⟨h55, rfl, -, rfl⟩ | ⟨h56, rfl, -, rfl⟩⟩ := finalize_next s hl
  · have hcount : tailCount s.len.toNat = 1 := if_pos h55
    refine ⟨t, block, ht, ?_⟩
    rwa [hcount, tailBytes_eq_oneBlock h55, hashBlocks_one _ _ _ (length_oneBlock h55)]
  · have hcount : tailCount s.len.toNat = 2 := if_neg (by omega)
    have hfirst := length_firstBlock hl
    refine ⟨t, block, ht, ?_⟩
    rwa [hcount, tailBytes_eq_firstBlock_append h56 hl, hashBlocks, List.take_left' hfirst,
      List.drop_left' hfirst, hashBlocks_one _ _ _ (length_secondBlock s)]

/-- The blocks of a padded message: the message's whole blocks and those of the tail (R101). -/
theorem length_padded_div (msg : List Byte) :
    (padded msg).length / 64 = msg.length / 64 + tailCount (msg.length % 64) := by
  simp only [padded, padZeros, tailCount, List.length_append, List.length_cons,
    List.length_replicate, length_bytesBe64]
  split <;> omega

/-- The digest of the message is what the tail's blocks make of the engine's registers (R101). -/
theorem Represents.digestOf_eq {v : Variant} {msg : List Byte} {s : State}
    (hs : Represents v msg s) : digestOf v msg =
      serialize (hashBlocks s.variant (tailCount s.len.toNat) (tailBytes s) s.h) := by
  have hpart := hs.partialBlock_eq
  have hbits := hs.messageBits_eq
  obtain ⟨-, hvariant, hh, -, -, hlen, -⟩ := hs
  have hzeros : padZeros s.len.toNat = padZeros msg.length := by
    rw [padZeros, padZeros, hlen, Nat.mod_mod]
  rw [digestOf, length_padded_div, padded, hashBlocks_append, ← hpart, ← hh, ← hlen, ← hvariant,
    ← hzeros, ← hbits, ← tailBytes]

/-- A response after the padding sequence is one to the state before it. -/
theorem Padded.responded {n : Nat} {h : Regs} {block : List Byte} {s t : State}
    (P : Padded n h block s t) (st : Status) (out : List Byte) :
    Responded st.code out s (respond st out t) := by
  have hresponded := responded_respond st out t
  simpa only [Responded, P.resp, P.cmd, P.traceEn, P.trace] using hresponded

/-- FINAL answers the digest of the message the engine stands for (R93, R107). -/
theorem Represents.exec_final {v : Variant} {msg : List Byte} {s : State}
    (hs : Represents v msg s) :
    ∃ t, exec .final s = .next t ∧ Responded 0x00 (digestOf v msg) s t := by
  obtain ⟨u, block, hu, P⟩ := finalize_tail s hs.len_lt
  refine ⟨_, execFinal_ok hs.left hu, ?_⟩
  rw [hs.digestOf_eq, P.h]
  exact P.responded .ok _

/-- A computation after its INIT: the commands that absorb, then FINAL (R107). -/
theorem Represents.execList_final {v : Variant} {s : State} (hs : Represents v [] s)
    {cmds : List Instr} (hcmds : ∀ i ∈ cmds, Absorbing i) :
    ∃ t codes, execList (cmds ++ [.final]) s = .next t ∧ codes.length = cmds.length ∧
      t.resp = s.resp ++ (codes ++ 0x00 :: digestOf v (cmds.flatMap encodePayload)) := by
  obtain ⟨u, codes, hu, hmsg, hlen, hresp⟩ := hs.execList_absorbing cmds hcmds
  obtain ⟨t, ht, hfinal, -⟩ := hmsg.exec_final
  refine ⟨t, codes, ?_, hlen, ?_⟩
  · rw [execList_append cmds [.final] s u hu]
    simp only [execList, ht]
  · rw [hfinal, hresp, List.nil_append, List.append_assoc]

/-- An INIT and one response leave the engine standing for the empty message, whatever it held (R64,
R65). -/
theorem represents_init (v : Variant) (s : State) :
    Represents v [] (respond .ok [] (construct v s)) :=
  (represents_construct v s).after_respond .ok []

/-- Settles O49: an INIT of either variant forgets the state, and the rest is `execList_final`. -/
theorem digestDependsOnVariantAndMessageOnly : Obligations.DigestDependsOnVariantAndMessageOnly := by
  intro s cmds hcmds
  have hcomputation (v : Variant) := (represents_init v s).execList_final hcmds
  simp only [respond_resp, construct_resp, List.append_assoc] at hcomputation
  refine ⟨?_, ?_⟩
  · simp only [execList, exec_initSha0]
    exact hcomputation .sha0
  · simp only [execList, exec_initSha1]
    exact hcomputation .sha1

end Sys2Proof.Machine

/-! PROOFS. The faults: an illegal header, a command outside phase Accepting and an argument that is no
length (60_exceptions.md R110 to R113), and the table of status (R118). -/

namespace Sys2Proof.Machine

/-- The decoder refuses a header that R53 calls illegal, and takes no more than the header (R52). -/
theorem decodeHeader_illegal (hd : Word) (rest : List Byte) (h : IllegalHeader hd.toNat) :
    ∃ why, decodeHeader hd rest = .illegal why rest := by
  simp only [decodeHeader, headerOpc_eq_one, headerOpc_eq_two, headerOpc_eq_three,
    headerZeroV_eq_zero, headerZeroN_eq_zero]
  have hcases : (hd.toNat / 2 ^ 28 = 0 ∨ 4 ≤ hd.toNat / 2 ^ 28) ∨
      (hd.toNat / 2 ^ 28 = 1 ∧ hd.toNat % 2 ^ 28 / 2 ≠ 0) ∨
      (hd.toNat / 2 ^ 28 = 3 ∧ hd.toNat % 2 ^ 28 ≠ 0) := or_assoc.mpr h
  obtain hopc | ⟨hopc, hbits⟩ | ⟨hopc, hbits⟩ := hcases
  · exact ⟨.unassignedOpcode, by rw [if_neg (by omega), if_neg (by omega), if_neg (by omega)]⟩
  · exact ⟨.initReservedBits, by rw [if_pos hopc, if_neg (by omega)]⟩
  · exact ⟨.finalReservedBits, by
      rw [if_neg (by omega), if_neg (by omega), if_pos hopc, if_neg hbits]⟩

/-- A step at an illegal header consumes its four bytes and raises IllegalCommand, whatever the phase
(R112). -/
theorem step_illegalHeader {s : State} {b0 b1 b2 b3 : Byte} {rest : List Byte}
    (hcmd : s.cmd = b0 :: b1 :: b2 :: b3 :: rest) (h : IllegalHeader (headerNumber b0 b1 b2 b3)) :
    step s = .next (raise .illegalCommand (consume rest s)) := by
  rw [headerNumber, ← toNat_be32] at h
  obtain ⟨why, hwhy⟩ := decodeHeader_illegal _ rest h
  have hdecode : fetch s = .illegal why rest := by rw [fetch, hcmd, decode, hwhy]
  rw [step, hdecode]
  rfl

/-- Settles O9: an illegal header is consumed and raised, and `raise` writes nothing but the response. -/
theorem illegalHeaderAnswersIllegalCommand : Obligations.IllegalHeaderAnswersIllegalCommand := by
  intro s b0 b1 b2 b3 rest hcmd h
  exact ⟨_, step_illegalHeader hcmd h, sameEngine_raise .illegalCommand (consume rest s),
    raise_freeCtr .illegalCommand (consume rest s), responded_raise .illegalCommand (consume rest s)⟩

/-- Outside phase Accepting every command but an INIT raises InvalidState (R111). -/
theorem exec_invalidState {i : Instr} {s : State} (hp : s.phase ≠ .accepting) (h0 : i ≠ .initSha0)
    (h1 : i ≠ .initSha1) : exec i s = .next (raise .invalidState s) := by
  cases i with
  | initSha0 => exact absurd rfl h0
  | initSha1 => exact absurd rfl h1
  | absorb data => exact execAbsorb_invalidState data s hp
  | absorbNull cnt => exact (execAbsorbNull_eq cnt s).trans (by rw [if_neg hp])
  | final => exact execFinal_invalidState s hp

/-- Settles O18: each of these commands is `raise .invalidState`, which writes nothing but the response. -/
theorem outsideAcceptingIsInvalidState : Obligations.OutsideAcceptingIsInvalidState := by
  intro s hp i h0 h1
  exact ⟨_, exec_invalidState hp h0 h1, sameEngine_raise .invalidState s,
    raise_freeCtr .invalidState s, responded_raise .invalidState s⟩

/-- ABSORB.NULL in phase Accepting with a length that is not zero (R110). -/
theorem exec_absorbNull_invalidArgument {cnt : BitVec 27} {s : State} (hp : s.phase = .accepting)
    (hc : cnt ≠ 0) : exec (.absorbNull cnt) s = .next (raise .invalidArgument s) :=
  (execAbsorbNull_eq cnt s).trans (by rw [if_pos hp, if_neg hc])

/-- ABSORB.NULL 0 in phase Accepting (R71). -/
theorem exec_absorbNull_zero {s : State} (hp : s.phase = .accepting) :
    exec (.absorbNull 0) s = .next (respond .ok [] s) :=
  (execAbsorbNull_eq 0 s).trans (by rw [if_pos hp, if_pos rfl])

/-- What answers a status other than OK: the command that faults, or the header, and the state it faults
in (R110 to R112). -/
def Raises (d : Decoded) (s : State) : Status → List Byte → Prop
  | .ok, _ => False
  | .invalidArgument, rest =>
    s.phase = .accepting ∧ ∃ cnt, d = .instr (.absorbNull cnt) rest ∧ cnt ≠ 0
  | .invalidState, rest => s.phase ≠ .accepting ∧ ∃ i, d = .instr i rest
  | .illegalCommand, rest => ∃ why, d = .illegal why rest

/-- What is left of the stream after a fault stands after the whole command or the illegal header. -/
theorem Raises.consumed {d : Decoded} {s : State} {st : Status} {rest : List Byte}
    (h : Raises d s st rest) : (∃ i, d = .instr i rest) ∨ ∃ why, d = .illegal why rest := by
  cases st with
  | ok => exact h.elim
  | invalidArgument =>
    obtain ⟨-, cnt, hd, -⟩ := h
    exact .inl ⟨_, hd⟩
  | invalidState => exact .inl h.right
  | illegalCommand => exact .inr h

/-- A step that answers a status other than OK consumes its command, raises and does no more (R113). -/
theorem step_ok_or_raises {s t : State} (h : step s = .next t) :
    (∃ out, t.resp = s.resp ++ Status.ok.code :: out) ∨
    ∃ st rest, Raises (decode s.cmd) s st rest ∧ t = raise st (consume rest s) := by
  obtain ⟨i, rest, hd, hs⟩ | ⟨why, rest, hd, hs⟩ | ⟨_, _, r, hs⟩ := step_cases s <;> rw [hs] at h
  · obtain ⟨-, rfl⟩ | ⟨-, rfl⟩ | ⟨data, u, -, -, hu, rfl⟩ | ⟨-, -, rfl⟩ | ⟨cnt, rfl, hc, hp, rfl⟩ |
      ⟨-, -, u, hu, rfl⟩ | ⟨hp, -, -, rfl⟩ := exec_cases i _ t h
    · exact .inl ⟨[], by simp⟩
    · exact .inl ⟨[], by simp⟩
    · exact .inl ⟨[], by simp [absorbBytes_resp hu]⟩
    · exact .inl ⟨[], by simp⟩
    · exact .inr ⟨.invalidArgument, rest, ⟨hp, cnt, hd, hc⟩, rfl⟩
    · exact .inl ⟨serialize u.h, by simp [finalize_resp hu]⟩
    · exact .inr ⟨.invalidState, rest, ⟨hp, i, hd⟩, rfl⟩
  · cases h
    exact .inr ⟨.illegalCommand, rest, ⟨why, hd⟩, rfl⟩
  · cases h

/-- A step whose response begins with a byte other than 0x00 raised the status of that byte. -/
theorem step_raises {s t : State} {b : Byte} {out : List Byte} (h : step s = .next t)
    (hresp : t.resp = s.resp ++ b :: out) (hb : b ≠ 0x00) :
    ∃ st rest, Raises (decode s.cmd) s st rest ∧ t = raise st (consume rest s) ∧
      b = st.code ∧ out = [] := by
  obtain ⟨out', hok⟩ | ⟨st, rest, hraises, rfl⟩ := step_ok_or_raises h
  · rw [hresp, List.append_cancel_left_eq, List.cons.injEq] at hok
    exact absurd hok.left hb
  · rw [raise_resp, consume_resp, List.append_cancel_left_eq, List.cons.injEq] at hresp
    exact ⟨st, rest, hraises, rfl, hresp.left.symm, hresp.right.symm⟩

/-- Settles O39: a status other than OK was raised, and `raise` writes nothing but the response. -/
theorem faultedCommandChangesNothing : Obligations.FaultedCommandChangesNothing := by
  intro s t b out h hresp hb
  obtain ⟨st, rest, hraises, rfl, -, hout⟩ := step_raises h hresp hb
  refine ⟨sameEngine_raise st (consume rest s), hout, raise_freeCtr st _, raise_traceEn st _, ?_⟩
  simpa only [raise_cmd, consume_cmd] using hraises.consumed

theorem Status.code_eq_one_iff (st : Status) : st.code = 0x01 ↔ st = .invalidArgument := by
  cases st <;> decide

/-- A step at an ABSORB.NULL with a length that is not zero, in phase Accepting, answers 0x01 alone
(R110). -/
theorem step_invalidArgument {s : State} {cnt : BitVec 27} {rest : List Byte}
    (hp : s.phase = .accepting) (hd : decode s.cmd = .instr (.absorbNull cnt) rest) (hc : cnt ≠ 0) :
    ∃ t, step s = .next t ∧ t.resp = s.resp ++ [0x01] := by
  have hfetch : fetch s = .instr (.absorbNull cnt) rest := hd
  refine ⟨raise .invalidArgument (consume rest s), ?_, raise_resp .invalidArgument (consume rest s)⟩
  rw [step, hfetch]
  exact exec_absorbNull_invalidArgument hp hc

/-- Settles O20: only `raise .invalidArgument` answers 0x01, and it has the one cause. -/
theorem invalidArgumentHasOneCause : Obligations.InvalidArgumentHasOneCause := by
  refine fun s => ⟨⟨?_, ?_⟩, fun cnt rest hp hd hc => step_invalidArgument hp hd hc⟩
  · rintro ⟨t, out, h, hresp⟩
    obtain ⟨st, rest, hraises, -, hcode, -⟩ := step_raises h hresp (by decide)
    obtain rfl := (Status.code_eq_one_iff st).mp hcode.symm
    obtain ⟨hp, cnt, hd, hc⟩ := hraises
    exact ⟨hp, cnt, rest, hd, hc⟩
  · rintro ⟨hp, cnt, rest, hd, hc⟩
    obtain ⟨t, h, hresp⟩ := step_invalidArgument hp hd hc
    exact ⟨t, [], h, hresp⟩

/-- An ABSORB that completes answers OK alone (R70). -/
theorem exec_absorb_answers_ok (data : List Byte) {s : State} (hp : s.phase = .accepting)
    (hl : s.len.toNat < 64) : ∃ t, exec (.absorb data) s = .next t ∧ t.resp = s.resp ++ [0x00] := by
  obtain ⟨u, hu, A⟩ := absorbBytes_ok data s hl
  exact ⟨_, exec_absorb_ok hp hu, by rw [respond_resp, A.resp]; rfl⟩

/-- Outside phase Accepting every command but an INIT answers 0x02 alone (R111). -/
theorem exec_answers_invalidState {i : Instr} {s : State} (hp : s.phase ≠ .accepting)
    (h0 : i ≠ .initSha0) (h1 : i ≠ .initSha1) :
    ∃ t, exec i s = .next t ∧ t.resp = s.resp ++ [0x02] :=
  ⟨_, exec_invalidState hp h0 h1, raise_resp .invalidState s⟩

/-- Settles O40: each entry of the table is what its command, or the step at an illegal header,
responds or raises. -/
theorem statusByCommandAndPhase : Obligations.StatusByCommandAndPhase := by
  intro s
  refine ⟨⟨_, exec_initSha0 s, respond_resp .ok [] _⟩, ⟨_, exec_initSha1 s, respond_resp .ok [] _⟩,
    fun hp hl => ⟨?_, ?_, ?_, ?_⟩, fun hphase => ?_, ?_⟩
  · exact fun data => exec_absorb_answers_ok data hp hl
  · exact ⟨_, exec_absorbNull_zero hp, respond_resp .ok [] s⟩
  · exact fun cnt hc => ⟨_, exec_absorbNull_invalidArgument hp hc, raise_resp .invalidArgument s⟩
  · obtain ⟨t, out, h, hresp, hlength, -⟩ := finalDeliversRegistersBigEndian s hp hl
    exact ⟨t, out, h, hresp, hlength⟩
  · have hp : s.phase ≠ .accepting := by
      obtain h | h := hphase <;> rw [h] <;> decide
    exact ⟨fun data => exec_answers_invalidState hp nofun nofun,
      fun cnt => exec_answers_invalidState hp nofun nofun,
      exec_answers_invalidState hp nofun nofun⟩
  · intro b0 b1 b2 b3 rest hcmd h
    exact ⟨_, step_illegalHeader hcmd h, raise_resp .illegalCommand (consume rest s)⟩

end Sys2Proof.Machine

/-! PROOFS. The trace side channel (60_exceptions.md R122): nothing a command does reads TRACE_EN, the
trace output or its counter, and only a response adds to the trace output. -/

namespace Sys2Proof.Machine

/-- The state with another trace side channel. -/
def withTrace (en : Bool) (tr : List Byte) (n : Nat) (s : State) : State :=
  { s with traceEn := en, trace := tr, traceCtr := n }

theorem sameButTrace_withTrace (en : Bool) (tr : List Byte) (n : Nat) (s : State) :
    SameButTrace s (withTrace en tr n s) := rfl

theorem SameButTrace.exists_withTrace {s t : State} (h : SameButTrace s t) :
    ∃ en tr n, t = withTrace en tr n s := ⟨_, _, _, h⟩

/-- A response to either state puts out the same bytes, but for the trace. -/
theorem SameButTrace.after_respond {s t : State} (h : SameButTrace s t) (st : Status)
    (out : List Byte) : SameButTrace (respond st out s) (respond st out t) := by
  obtain ⟨en, tr, n, rfl⟩ := h.exists_withTrace
  unfold respond emitTrace
  split <;> split <;> rfl

section withTrace
variable (en : Bool) (tr : List Byte) (n : Nat)

theorem absorbByte_withTrace (x : Byte) (s : State) :
    absorbByte x (withTrace en tr n s) = (absorbByte x s).map (withTrace en tr n) := by
  obtain h | h | h : s.len.toNat < 63 ∨ s.len.toNat = 63 ∨ 64 ≤ s.len.toNat := by omega
  · rw [absorbByte_store x s h, absorbByte_store x (withTrace en tr n s) h]; rfl
  · rw [absorbByte_flush x s h, absorbByte_flush x (withTrace en tr n s) h]; rfl
  · rw [absorbByte_fault x s h, absorbByte_fault x (withTrace en tr n s) h]; rfl

theorem absorbBytes_withTrace (data : List Byte) : ∀ s : State,
    absorbBytes data (withTrace en tr n s) = (absorbBytes data s).map (withTrace en tr n) := by
  induction data with
  | nil => exact fun s => rfl
  | cons x xs ih =>
    intro s
    rw [absorbBytes, absorbBytes, absorbByte_withTrace]
    cases absorbByte x s with
    | error f => rfl
    | ok t => exact ih t

theorem finalize_withTrace (s : State) :
    finalize (withTrace en tr n s) = (finalize s).map (withTrace en tr n) := by
  obtain h | ⟨h56, h⟩ | h : s.len.toNat < 56 ∨ (56 ≤ s.len.toNat ∧ s.len.toNat < 64) ∨
      64 ≤ s.len.toNat := by omega
  · rw [finalize_one s h, finalize_one (withTrace en tr n s) h]; rfl
  · rw [finalize_two s h h56, finalize_two (withTrace en tr n s) h h56]; rfl
  · rw [finalize_fault s h, finalize_fault (withTrace en tr n s) h]; rfl
end withTrace

/-- What ABSORB and FINAL answer in phase Accepting, from what their operation gives: OK and `out`, or
the stop. -/
def completion (out : State → List Byte) :
    Except Fault State → Host.Outcome State Fault Refusal
  | .error f => .fault f
  | .ok t => .next (respond .ok (out t) t)

theorem exec_absorb_eq_completion (data : List Byte) {s : State} (hp : s.phase = .accepting) :
    exec (.absorb data) s = completion (fun _ => []) (absorbBytes data s) := by
  show execAbsorb data s = _
  rw [execAbsorb, if_pos ((accepting_iff s).mpr hp)]
  cases absorbBytes data s <;> rfl

theorem exec_final_eq_completion {s : State} (hp : s.phase = .accepting) :
    exec .final s = completion (fun t => serialize t.h) (finalize s) := by
  show execFinal s = _
  rw [execFinal, if_pos ((accepting_iff s).mpr hp)]
  cases finalize s <;> rfl

/-- An operation that commutes with a change of the trace side channel answers alike. -/
theorem completion_sameButTrace {out : State → List Byte} {en : Bool} {tr : List Byte} {n : Nat}
    (hout : ∀ t, out (withTrace en tr n t) = out t) (r : Except Fault State) :
    Related SameButTrace (completion out r) (completion out (r.map (withTrace en tr n))) := by
  cases r with
  | error f => exact rfl
  | ok t =>
    show SameButTrace _ (respond .ok (out (withTrace en tr n t)) (withTrace en tr n t))
    rw [hout]
    exact (sameButTrace_withTrace en tr n t).after_respond .ok (out t)

/-- An INIT writes the same into both states. -/
theorem SameButTrace.after_construct {s t : State} (h : SameButTrace s t) (v : Variant) :
    SameButTrace (construct v s) (construct v t) := by
  obtain ⟨en, tr, n, rfl⟩ := h.exists_withTrace
  rfl

/-- No command reads the trace side channel (R122). -/
theorem exec_sameButTrace (i : Instr) {s s' : State} (h : SameButTrace s s') :
    Related SameButTrace (exec i s) (exec i s') := by
  have hinit (v : Variant) := (h.after_construct v).after_respond .ok []
  obtain ⟨en, tr, n, rfl⟩ := h.exists_withTrace
  by_cases hp : s.phase = .accepting
  · have hp' : (withTrace en tr n s).phase = .accepting := hp
    cases i with
    | initSha0 => exact hinit .sha0
    | initSha1 => exact hinit .sha1
    | absorb data =>
      rw [exec_absorb_eq_completion data hp, exec_absorb_eq_completion data hp',
        absorbBytes_withTrace]
      exact completion_sameButTrace (fun _ => rfl) _
    | absorbNull cnt =>
      by_cases hc : cnt = 0
      · subst hc
        rw [exec_absorbNull_zero hp, exec_absorbNull_zero hp']
        exact h.after_respond .ok []
      · rw [exec_absorbNull_invalidArgument hp hc, exec_absorbNull_invalidArgument hp' hc]
        exact h.after_respond .invalidArgument []
    | final =>
      rw [exec_final_eq_completion hp, exec_final_eq_completion hp', finalize_withTrace]
      exact completion_sameButTrace (fun _ => rfl) _
  · have hp' : (withTrace en tr n s).phase ≠ .accepting := hp
    by_cases hi : i = .initSha0 ∨ i = .initSha1
    · obtain rfl | rfl := hi
      · exact hinit .sha0
      · exact hinit .sha1
    · obtain ⟨h0, h1⟩ := not_or.mp hi
      rw [exec_invalidState hp h0 h1, exec_invalidState hp' h0 h1]
      exact h.after_respond .invalidState []

/-- No step reads the trace side channel (R122). -/
theorem step_sameButTrace {s s' : State} (h : SameButTrace s s') :
    Related SameButTrace (step s) (step s') := by
  obtain ⟨en, tr, n, rfl⟩ := h.exists_withTrace
  have hconsume (rest : List Byte) :
      SameButTrace (consume rest s) (consume rest (withTrace en tr n s)) := rfl
  exact step_related rfl (fun i rest => exec_sameButTrace i (hconsume rest))
    fun rest => (hconsume rest).after_respond .illegalCommand []

/-- From `s` to `t` TRACE_EN stands, and with it off the trace output too. -/
def TraceStands (s t : State) : Prop :=
  t.traceEn = s.traceEn ∧ (s.traceEn = false → t.trace = s.trace)

/-- A response keeps TRACE_EN, and with it off the trace output, where what went before it did. -/
theorem traceStands_respond (st : Status) (out : List Byte) {s u : State}
    (hen : u.traceEn = s.traceEn) (htrace : u.trace = s.trace) :
    TraceStands s (respond st out u) :=
  ⟨(respond_traceEn st out u).trans hen,
    fun hoff => (respond_trace_off st out u (hen.trans hoff)).trans htrace⟩

theorem exec_traceStands {i : Instr} {s t : State} (h : exec i s = .next t) : TraceStands s t := by
  obtain ⟨-, rfl⟩ | ⟨-, rfl⟩ | ⟨data, u, -, -, hu, rfl⟩ | ⟨-, -, rfl⟩ | ⟨cnt, -, -, -, rfl⟩ |
    ⟨-, -, u, hu, rfl⟩ | ⟨-, -, -, rfl⟩ := exec_cases i s t h
  · exact traceStands_respond .ok [] rfl rfl
  · exact traceStands_respond .ok [] rfl rfl
  · obtain ⟨-, rfl⟩ | ⟨-, A⟩ := absorbBytes_cases data s u hu
    · exact traceStands_respond .ok [] rfl rfl
    · exact traceStands_respond .ok [] A.traceEn A.trace
  · exact traceStands_respond .ok [] rfl rfl
  · exact traceStands_respond .invalidArgument [] rfl rfl
  · obtain ⟨-, _, _, _, P⟩ := finalize_cases s u hu
    exact traceStands_respond .ok (serialize u.h) P.traceEn P.trace
  · exact traceStands_respond .invalidState [] rfl rfl

theorem step_traceStands {s t : State} (h : step s = .next t) : TraceStands s t := by
  obtain ⟨i, rest, -, hs⟩ | ⟨why, rest, -, hs⟩ | ⟨_, -, r, hs⟩ := step_cases s <;> rw [hs] at h
  · exact exec_traceStands (s := consume rest s) h
  · cases h
    exact traceStands_respond .illegalCommand [] rfl rfl
  · cases h

/-- Settles O45: steps commute with a change of the side channel, and only a response writes to it. -/
theorem traceInfluencesNothing : Obligations.TraceInfluencesNothing :=
  ⟨fun _ _ => step_sameButTrace, fun _ _ => step_traceStands⟩

end Sys2Proof.Machine

/-! PROOFS. The decoder and the encoder (30_encoding.md R46 to R53): which header number gives which
command, and from that both round trips, the illegal headers and the steps of a command stream. -/

namespace Sys2Proof.Machine

/-- Every header number is one of a legal command or illegal (R51, R53). -/
theorem headerNumber_cases (n : Nat) (hn : n < 2 ^ 32) :
    n = 0x10000000 ∨ n = 0x10000001 ∨ (0x20000000 ≤ n ∧ n < 0x28000000) ∨
      (0x28000000 ≤ n ∧ n < 0x30000000) ∨ n = 0x30000000 ∨ IllegalHeader n := by
  unfold IllegalHeader
  omega

theorem decodeHeader_initSha0 (rest : List Byte) :
    decodeHeader 0x10000000 rest = .instr .initSha0 rest := rfl

theorem decodeHeader_initSha1 (rest : List Byte) :
    decodeHeader 0x10000001 rest = .instr .initSha1 rest := rfl

theorem decodeHeader_final (rest : List Byte) : decodeHeader 0x30000000 rest = .instr .final rest := rfl

/-- ABSORB.NULL: CNT is what the header number has above 0x20000000 (R48, R50). -/
theorem decodeHeader_absorbNull {hd : Word} (hlo : 0x20000000 ≤ hd.toNat) (hhi : hd.toNat < 0x28000000)
    (rest : List Byte) :
    decodeHeader hd rest = .instr (.absorbNull (BitVec.ofNat 27 (hd.toNat - 0x20000000))) rest := by
  have hcnt : headerCnt hd = BitVec.ofNat 27 (hd.toNat - 0x20000000) :=
    BitVec.eq_of_toNat_eq (by rw [toNat_headerCnt, BitVec.toNat_ofNat]; omega)
  simp only [decodeHeader, headerOpc_eq_one, headerOpc_eq_two, headerP_eq_one]
  rw [if_neg (by omega), if_pos (by omega), if_neg (by omega), hcnt]

/-- ABSORB: the payload has as many bytes as the header number has above 0x28000000, and the command is
incomplete until they are there (R48, R50, R52). -/
theorem decodeHeader_absorb {hd : Word} (hlo : 0x28000000 ≤ hd.toNat) (hhi : hd.toNat < 0x30000000)
    (rest : List Byte) :
    decodeHeader hd rest = if rest.length < hd.toNat - 0x28000000 then .incomplete .payload
      else .instr (.absorb (rest.take (hd.toNat - 0x28000000))) (rest.drop (hd.toNat - 0x28000000)) := by
  have hcnt : (headerCnt hd).toNat = hd.toNat - 0x28000000 := by rw [toNat_headerCnt]; omega
  simp only [decodeHeader, headerOpc_eq_one, headerOpc_eq_two, headerP_eq_one, hcnt]
  rw [if_neg (by omega), if_pos (by omega), if_pos (by omega)]

/-- An ABSORB is well-formed where its payload's length fits CNT (R48). -/
theorem wf_absorb_iff {data : List Byte} : (Instr.absorb data).wf = true ↔ data.length < 2 ^ 27 := by
  rw [Instr.wf, decide_eq_true_iff]

/-- The header of a well-formed command, with its payload after it, is decoded to the command (R46 to
R50). -/
theorem decodeHeader_encodeHeader {i : Instr} (hwf : i.wf = true) (rest : List Byte) :
    decodeHeader (encodeHeader i) (encodePayload i ++ rest) = .instr i rest := by
  cases i with
  | initSha0 => exact decodeHeader_initSha0 rest
  | initSha1 => exact decodeHeader_initSha1 rest
  | absorb data =>
    have hlen : data.length < 2 ^ 27 := wf_absorb_iff.mp hwf
    have hnum := toNat_encodeHeader_absorb data hlen
    have hpayload : (encodeHeader (.absorb data)).toNat - 0x28000000 = data.length := by omega
    rw [decodeHeader_absorb (by omega) (by omega), hpayload, encodePayload, if_neg (by simp),
      List.take_left, List.drop_left]
  | absorbNull cnt =>
    have hnum := toNat_encodeHeader_absorbNull cnt
    have hcnt : (encodeHeader (.absorbNull cnt)).toNat - 0x20000000 = cnt.toNat := by omega
    rw [decodeHeader_absorbNull (by omega) (by omega), hcnt, BitVec.ofNat_toNat, BitVec.setWidth_eq]
    rfl
  | final => exact decodeHeader_final rest

theorem decode_encode {i : Instr} (hwf : i.wf = true) (rest : List Byte) :
    decode (encode i ++ rest) = .instr i rest := by
  rw [encode, List.append_assoc, decode_bytesBe32, decodeHeader_encodeHeader hwf]

/-- Settles O2: the header of each command is decoded by the range its number is in. -/
theorem encodedCommandDecodesToItself : Obligations.EncodedCommandDecodesToItself :=
  fun _ rest hwf => decode_encode hwf rest

/-- A header is legal and gives a command that is encoded as the header and the payload taken, or is legal
and waits for its payload, or is illegal (R46 to R53). -/
theorem decodeHeader_cases (hd : Word) (bytes : List Byte) :
    (¬ IllegalHeader hd.toNat ∧ ∃ i rest, decodeHeader hd bytes = .instr i rest ∧ i.wf = true ∧
      encodeHeader i = hd ∧ encodePayload i ++ rest = bytes) ∨
    (¬ IllegalHeader hd.toNat ∧ decodeHeader hd bytes = .incomplete .payload) ∨
    (IllegalHeader hd.toNat ∧ ∃ why, decodeHeader hd bytes = .illegal why bytes) := by
  obtain hn | hn | ⟨hlo, hhi⟩ | ⟨hlo, hhi⟩ | hn | hill := headerNumber_cases hd.toNat hd.isLt
  · obtain rfl : hd = 0x10000000 := eq_ofNat_of_toNat hn
    exact .inl ⟨by decide, _, _, decodeHeader_initSha0 bytes, rfl, rfl, rfl⟩
  · obtain rfl : hd = 0x10000001 := eq_ofNat_of_toNat hn
    exact .inl ⟨by decide, _, _, decodeHeader_initSha1 bytes, rfl, rfl, rfl⟩
  · refine .inl ⟨by omega, _, _, decodeHeader_absorbNull hlo hhi bytes, rfl,
      BitVec.eq_of_toNat_eq ?_, rfl⟩
    rw [toNat_encodeHeader_absorbNull, BitVec.toNat_ofNat]
    omega
  · have hdecode := decodeHeader_absorb hlo hhi bytes
    split at hdecode
    · exact .inr (.inl ⟨by omega, hdecode⟩)
    · have hlen : (bytes.take (hd.toNat - 0x28000000)).length = hd.toNat - 0x28000000 :=
        List.length_take_of_le (by omega)
      have hshort : (bytes.take (hd.toNat - 0x28000000)).length < 2 ^ 27 := by omega
      have hnum := toNat_encodeHeader_absorb _ hshort
      rw [hlen, Nat.add_sub_of_le hlo] at hnum
      exact .inl ⟨by omega, _, _, hdecode, wf_absorb_iff.mpr hshort, BitVec.eq_of_toNat_eq hnum,
        by rw [encodePayload, List.take_append_drop]⟩
  · obtain rfl : hd = 0x30000000 := eq_ofNat_of_toNat hn
    exact .inl ⟨by decide, _, _, decodeHeader_final bytes, rfl, rfl, rfl⟩
  · exact .inr (.inr ⟨hill, decodeHeader_illegal hd bytes hill⟩)

/-- What is decoded from a header and the bytes after it is encoded as that header and the payload taken
(R46 to R51). -/
theorem encode_of_decodeHeader {hd : Word} {bytes rest : List Byte} {i : Instr}
    (h : decodeHeader hd bytes = .instr i rest) :
    i.wf = true ∧ encodeHeader i = hd ∧ encodePayload i ++ rest = bytes := by
  obtain ⟨-, j, rest', hdecode, hencode⟩ | ⟨-, hdecode⟩ | ⟨-, why, hdecode⟩ :=
    decodeHeader_cases hd bytes <;> rw [h] at hdecode <;> cases hdecode
  exact hencode

/-- Settles O3: the header's four bytes are those of its word, and the rest is `encode_of_decodeHeader`. -/
theorem decodedCommandEncodesToItsBytes : Obligations.DecodedCommandEncodesToItsBytes := by
  intro bytes i rest h
  obtain ⟨w, hw, -⟩ | ⟨b0, b1, b2, b3, after, rfl, hd⟩ := decode_cases bytes
  · rw [hw] at h
    cases h
  · rw [hd] at h
    obtain ⟨hwf, hheader, hpayload⟩ := encode_of_decodeHeader h
    refine ⟨hwf, ?_⟩
    rw [encode, List.append_assoc, hheader, hpayload, bytesBe32_be32]
    rfl

/-- A header answers `illegal` exactly where R53 calls it so, and then what follows it is the rest. -/
theorem decodeHeader_eq_illegal_iff (hd : Word) (bytes rest : List Byte) :
    (∃ why, decodeHeader hd bytes = .illegal why rest) ↔ IllegalHeader hd.toNat ∧ rest = bytes := by
  obtain ⟨hlegal, i, rest', hdecode, -⟩ | ⟨hlegal, hdecode⟩ | ⟨hill, why, hdecode⟩ :=
    decodeHeader_cases hd bytes
  · simp [hdecode, hlegal]
  · simp [hdecode, hlegal]
  · simp [hdecode, hill, eq_comm]

/-- Settles O4: the decoder's answer depends on the number of the header. -/
theorem illegalHeadersAreExactlyTheReserved : Obligations.IllegalHeadersAreExactlyTheReserved := by
  intro b0 b1 b2 b3 rest
  have hiff (rest' : List Byte) := decodeHeader_eq_illegal_iff (be32 b0 b1 b2 b3) rest rest'
  rw [toNat_be32] at hiff
  exact ⟨(hiff rest).trans (and_iff_left rfl), fun why rest' h => ((hiff rest').mp ⟨why, h⟩).right⟩

/-- Settles O5: the two ranges of header numbers. -/
theorem absorbHeadersCarryTheirOperands : Obligations.AbsorbHeadersCarryTheirOperands := by
  intro b0 b1 b2 b3 rest
  have hnum : (be32 b0 b1 b2 b3).toNat = headerNumber b0 b1 b2 b3 := toNat_be32 b0 b1 b2 b3
  rw [← hnum]
  refine ⟨fun hlo hhi => decodeHeader_absorbNull hlo hhi rest, fun hlo hhi hlen => ?_⟩
  rw [decode, decodeHeader_absorb hlo hhi, if_neg hlen.not_gt]

/-- Settles O1: each row of R60 is a literal. -/
theorem specHeadersDecode : Obligations.SpecHeadersDecode := by
  unfold Obligations.SpecHeadersDecode
  decide

theorem step_of_instr {s : State} {i : Instr} {rest : List Byte}
    (h : decode s.cmd = .instr i rest) : step s = exec i (consume rest s) := by
  rw [step, show fetch s = .instr i rest from h]

theorem step_of_incomplete {s : State} {why : Incomplete} (h : decode s.cmd = .incomplete why) :
    step s = noStep why := by
  rw [step, show fetch s = .incomplete why from h]

/-- Settles O7: `consume` is what takes the command off the stream. -/
theorem stepRunsTheDecodedCommand : Obligations.StepRunsTheDecodedCommand :=
  fun _ _ _ h => step_of_instr h

/-- Settles O6: in each of the three cases the decoder answers `incomplete`, with the reason the refusal
comes from. -/
theorem cutShortStreamHasNoStep : Obligations.CutShortStreamHasNoStep := by
  intro s
  refine ⟨fun hnil => ?_, fun hne hshort => ?_, fun b0 b1 b2 b3 rest hcmd hlo hhi hshort => ?_⟩
  · exact step_of_incomplete (why := .noCommand) (by rw [hnil]; rfl)
  · have hheader : decode s.cmd = .incomplete .header := by
      match hcmd : s.cmd with
      | [] => exact absurd hcmd hne
      | [_] => rfl
      | [_, _] => rfl
      | [_, _, _] => rfl
      | _ :: _ :: _ :: _ :: _ => simp [hcmd] at hshort; omega
    exact step_of_incomplete hheader
  · have hnum : (be32 b0 b1 b2 b3).toNat = headerNumber b0 b1 b2 b3 := toNat_be32 b0 b1 b2 b3
    rw [← hnum] at hlo hhi hshort
    have hpayload : decode s.cmd = .incomplete .payload := by
      rw [hcmd, decode, decodeHeader_absorb hlo hhi, if_pos hshort]
    exact step_of_incomplete hpayload

/-- The payload bytes a header announces (R48, R52). -/
def announced (hd : Word) : Nat :=
  if headerOpc hd = 0b0010 ∧ headerP hd = 1 then (headerCnt hd).toNat else 0

/-- A word of the opcode table is a header and as many bytes as it announces. -/
theorem tableBytes_eq (nbits w : Nat) : ∃ (hd : Word) (payload : List Byte),
    tableBytes nbits w = bytesBe32 hd ++ payload ∧ payload.length = announced hd :=
  ⟨_, _, rfl, by rw [List.length_map, List.length_range, announced]⟩

/-- The header of a well-formed command announces its payload (R48). -/
theorem announced_encodeHeader {i : Instr} (hwf : i.wf = true) :
    announced (encodeHeader i) = (encodePayload i).length := by
  cases i with
  | initSha0 => rfl
  | initSha1 => rfl
  | absorb data =>
    have hnum := toNat_encodeHeader_absorb data (wf_absorb_iff.mp hwf)
    have hlen : data.length < 2 ^ 27 := wf_absorb_iff.mp hwf
    simp only [announced, headerOpc_eq_two, headerP_eq_one, toNat_headerCnt, encodePayload]
    rw [if_pos (by omega)]
    omega
  | absorbNull cnt =>
    have hnum := toNat_encodeHeader_absorbNull cnt
    simp only [announced, headerOpc_eq_two, headerP_eq_one, encodePayload, List.length_nil]
    rw [if_neg (by omega)]
  | final => rfl

/-- The bytes of a table word that is a command are the command's encoding: none is left over. -/
theorem tableBytes_eq_encode {nbits w : Nat} {i : Instr} (h : decodeTableWord nbits w = some i) :
    i.wf = true ∧ tableBytes nbits w = encode i := by
  obtain ⟨hd, payload, hbytes, hlen⟩ := tableBytes_eq nbits w
  rw [decodeTableWord, hbytes, decode_bytesBe32] at h
  split at h
  next j rest hdecode =>
    cases h
    obtain ⟨hwf, hheader, hpayload⟩ := encode_of_decodeHeader hdecode
    have hnone : rest = [] := by
      have hsplit := congrArg List.length hpayload
      rw [List.length_append, hlen, ← hheader, announced_encodeHeader hwf] at hsplit
      exact List.length_eq_zero_iff.mp (by omega)
    rw [hnone, List.append_nil] at hpayload
    exact ⟨hwf, by rw [hbytes, encode, hheader, hpayload]⟩
  · cases h
  · cases h

/-- Settles O8: the word's bytes are the command's encoding, so what follows them is the old stream. -/
theorem placedTableWordRunsNext : Obligations.PlacedTableWordRunsNext := by
  intro s nbits w i h
  obtain ⟨hwf, hbytes⟩ := tableBytes_eq_encode h
  have hdecode : decode (s.withFetchWord nbits w).cmd = .instr i s.cmd := by
    show decode (tableBytes nbits w ++ s.cmd) = _
    rw [hbytes, decode_encode hwf]
  exact step_of_instr hdecode

end Sys2Proof.Machine

/-! PROOFS. What every step keeps (10_state.md R17, R19, R25): the invariant, the phase transitions, and
who writes H and VARIANT. -/

namespace Sys2Proof.Machine

theorem engineInv_respond (st : Status) (out : List Byte) {s : State} (h : EngineInv s) :
    EngineInv (respond st out s) := by
  simpa [EngineInv] using h

/-- INIT leaves BUF, empties it and counts nothing (R27). -/
theorem engineInv_construct (v : Variant) {s : State} (h : EngineInv s) : EngineInv (construct v s) := by
  obtain ⟨hwf, -, -⟩ := h
  exact ⟨hwf, by simp, fun _ => by simp⟩

/-- Absorbing counts whole blocks and holds less than one (R25 items 1 and 2). -/
theorem Absorbed.engineInv {data : List Byte} {s t : State} (A : Absorbed data s t)
    (h : EngineInv s) : EngineInv t := by
  obtain ⟨hwf, -, hacc⟩ := h
  have hlen : t.len.toNat < 64 := A.len ▸ Nat.mod_lt _ (by decide)
  refine ⟨A.wf hwf, hlen.le, fun hp => ⟨hlen, ?_⟩⟩
  obtain ⟨-, htot⟩ := hacc (A.phase.symm.trans hp)
  rw [A.totbits, BitVec.toNat_add, BitVec.toNat_ofNat]
  omega

theorem Padded.len_le {n : Nat} {h : Regs} {block : List Byte} {s t : State}
    (P : Padded n h block s t) : t.len.toNat ≤ 64 := P.len ▸ lenAfterFinal_le s.freeCtr

/-- The padding leaves phase Accepting, so of the invariant BUF's form and LEN's range remain. -/
theorem Padded.engineInv {n : Nat} {h : Regs} {block : List Byte} {s t : State}
    (P : Padded n h block s t) (hs : EngineInv s) : EngineInv t := by
  obtain ⟨hwf, -, -⟩ := hs
  refine ⟨P.wf hwf, P.len_le, fun hp => ?_⟩
  rw [P.phase] at hp
  cases hp

/-- Every command keeps the invariant. -/
theorem exec_engineInv {i : Instr} {s t : State} (hs : EngineInv s) (h : exec i s = .next t) :
    EngineInv t := by
  obtain ⟨-, rfl⟩ | ⟨-, rfl⟩ | ⟨data, u, -, -, hu, rfl⟩ | ⟨-, -, rfl⟩ | ⟨cnt, -, -, -, rfl⟩ |
    ⟨-, -, u, hu, rfl⟩ | ⟨-, -, -, rfl⟩ := exec_cases i s t h
  · exact engineInv_respond .ok [] (engineInv_construct .sha0 hs)
  · exact engineInv_respond .ok [] (engineInv_construct .sha1 hs)
  · obtain ⟨-, rfl⟩ | ⟨-, A⟩ := absorbBytes_cases data s u hu
    · exact engineInv_respond .ok [] hs
    · exact engineInv_respond .ok [] (A.engineInv hs)
  · exact engineInv_respond .ok [] hs
  · exact engineInv_respond .invalidArgument [] hs
  · obtain ⟨-, _, _, _, P⟩ := finalize_cases s u hu
    exact engineInv_respond .ok _ (P.engineInv hs)
  · exact engineInv_respond .invalidState [] hs

/-- Settles O34: a command keeps the invariant by `exec_engineInv`, an illegal header writes a response
only. -/
theorem everyStepKeepsTheInvariant : Obligations.EveryStepKeepsTheInvariant := by
  intro s t hs h
  have hconsume (rest : List Byte) : EngineInv (consume rest s) := hs
  obtain ⟨i, rest, -, hstep⟩ | ⟨why, rest, -, hstep⟩ | ⟨_, -, r, hstep⟩ := step_cases s <;>
    rw [hstep] at h
  · exact exec_engineInv (hconsume rest) h
  · cases h
    exact engineInv_respond .illegalCommand [] (hconsume rest)
  · cases h

/-- Settles O35: BUF is empty, LEN is 0 and the phase is not Accepting. -/
theorem resetMeetsTheInvariant : Obligations.ResetMeetsTheInvariant :=
  ⟨Buf.wf_reset, by decide, nofun⟩

/-- Settles O37. -/
theorem hardwareResetIsIdle : Obligations.HardwareResetIsIdle :=
  ⟨rfl, fun _ => ⟨rfl, rfl, rfl⟩⟩

/-- Every command completes where phase Accepting leaves room in the buffer. -/
theorem exec_completes (i : Instr) {s : State} (hroom : s.phase = .accepting → s.len.toNat < 64) :
    ∃ t, exec i s = .next t := by
  cases i with
  | initSha0 => exact ⟨_, exec_initSha0 s⟩
  | initSha1 => exact ⟨_, exec_initSha1 s⟩
  | absorbNull cnt => exact ⟨_, execAbsorbNull_eq cnt s⟩
  | absorb data =>
    by_cases hp : s.phase = .accepting
    · obtain ⟨u, hu, -⟩ := absorbBytes_ok data s (hroom hp)
      exact ⟨_, exec_absorb_ok hp hu⟩
    · exact ⟨_, exec_invalidState hp nofun nofun⟩
  | final =>
    by_cases hp : s.phase = .accepting
    · obtain ⟨u, -, -, -, hu, -⟩ := finalize_next s (hroom hp)
      exact ⟨_, execFinal_ok hp hu⟩
    · exact ⟨_, exec_invalidState hp nofun nofun⟩

/-- Settles O36: under the invariant there is room in the buffer, so the command completes. -/
theorem invariantExcludesFaults : Obligations.InvariantExcludesFaults := by
  rintro s ⟨-, -, hacc⟩ f
  obtain ⟨i, rest, -, hstep⟩ | ⟨why, rest, -, hstep⟩ | ⟨_, -, r, hstep⟩ := step_cases s <;>
    rw [hstep]
  · obtain ⟨t, ht⟩ := exec_completes i (s := consume rest s) fun hp => (hacc hp).left
    rw [ht]
    exact nofun
  · exact nofun
  · exact nofun

/-- Settles O25: neither the first byte of the payload nor the 0x80 byte has an index in BUF. -/
theorem writePointerOutsideBufFaults : Obligations.WritePointerOutsideBufFaults := by
  intro s x xs hp hl
  refine ⟨?_, execFinal_fault hp (finalize_fault s hl)⟩
  rw [exec_absorb_eq_completion _ hp, absorbBytes, absorbByte_fault x s hl]
  rfl

/-- Absorbing a payload is no phase transition (R19). -/
theorem absorbBytes_phase {data : List Byte} {s u : State} (h : absorbBytes data s = .ok u) :
    u.phase = s.phase := by
  obtain ⟨-, rfl⟩ | ⟨-, A⟩ := absorbBytes_cases data s u h
  · rfl
  · exact A.phase

/-- Settles O41: each answer of `exec_cases`, with the phase its operation leaves. -/
theorem phaseTransitions : Obligations.PhaseTransitions := by
  intro i s t h
  obtain ⟨rfl, rfl⟩ | ⟨rfl, rfl⟩ | ⟨data, u, rfl, -, hu, rfl⟩ | ⟨rfl, -, rfl⟩ | ⟨cnt, rfl, -, -, rfl⟩ |
    ⟨rfl, hp, u, hu, rfl⟩ | ⟨hp, h0, h1, rfl⟩ := exec_cases i s t h
  · rw [respond_phase, construct_phase]
  · rw [respond_phase, construct_phase]
  · rw [respond_phase, absorbBytes_phase hu]
  · rw [respond_phase]
  · rw [raise_phase]
  · obtain ⟨-, _, _, _, P⟩ := finalize_cases s u hu
    rw [respond_phase, P.phase, if_pos hp]
  · cases i with
    | initSha0 => exact absurd rfl h0
    | initSha1 => exact absurd rfl h1
    | absorb data => rw [raise_phase]
    | absorbNull cnt => rw [raise_phase]
    | final => rw [raise_phase, if_neg hp]

/-- A response after a payload is one to the state before it. -/
theorem Absorbed.responded {data : List Byte} {s t : State} (A : Absorbed data s t) (st : Status)
    (out : List Byte) : Responded st.code out s (respond st out t) := by
  have hresponded := responded_respond st out t
  simpa only [Responded, A.resp, A.cmd, A.traceEn, A.trace] using hresponded

/-- Every command that answers writes one response and touches nothing else outside the engine (R55). -/
theorem exec_responded {i : Instr} {s t : State} (h : exec i s = .next t) :
    ∃ code out, Responded code out s t := by
  obtain ⟨-, rfl⟩ | ⟨-, rfl⟩ | ⟨data, u, -, -, hu, rfl⟩ | ⟨-, -, rfl⟩ | ⟨cnt, -, -, -, rfl⟩ |
    ⟨-, -, u, hu, rfl⟩ | ⟨-, -, -, rfl⟩ := exec_cases i s t h
  · exact ⟨_, _, responded_respond_construct .ok [] .sha0 s⟩
  · exact ⟨_, _, responded_respond_construct .ok [] .sha1 s⟩
  · obtain ⟨-, rfl⟩ | ⟨-, A⟩ := absorbBytes_cases data s u hu
    · exact ⟨_, _, responded_respond .ok [] u⟩
    · exact ⟨_, _, A.responded .ok []⟩
  · exact ⟨_, _, responded_respond .ok [] s⟩
  · exact ⟨_, _, responded_raise .invalidArgument s⟩
  · obtain ⟨-, _, _, _, P⟩ := finalize_cases s u hu
    exact ⟨_, _, P.responded .ok _⟩
  · exact ⟨_, _, responded_raise .invalidState s⟩

/-- A payload that fills no block leaves H (R69). -/
theorem Absorbed.h_eq {data : List Byte} {s t : State} (A : Absorbed data s t)
    (hl : s.len.toNat + data.length < 64) : t.h = s.h := by
  rw [A.h, Nat.div_eq_of_lt hl, hashBlocks]

/-- A command that changes H is an INIT, a FINAL or an ABSORB that fills a block (R25 item 4). -/
theorem exec_h_changed {i : Instr} {s t : State} (h : exec i s = .next t) (hne : t.h ≠ s.h) :
    i = .initSha0 ∨ i = .initSha1 ∨ i = .final ∨
      ∃ data, i = .absorb data ∧ 64 ≤ s.len.toNat + data.length := by
  obtain ⟨hi, -⟩ | ⟨hi, -⟩ | ⟨data, u, hi, -, hu, rfl⟩ | ⟨-, -, rfl⟩ | ⟨cnt, -, -, -, rfl⟩ |
    ⟨hi, -⟩ | ⟨-, -, -, rfl⟩ := exec_cases i s t h
  · exact .inl hi
  · exact .inr (.inl hi)
  · rw [respond_h] at hne
    refine .inr (.inr (.inr ⟨data, hi, ?_⟩))
    obtain ⟨-, rfl⟩ | ⟨-, A⟩ := absorbBytes_cases data s u hu
    · exact absurd rfl hne
    · exact Nat.le_of_not_lt fun hlt => hne (A.h_eq hlt)
  · exact absurd (respond_h .ok [] s) hne
  · exact absurd (raise_h .invalidArgument s) hne
  · exact .inr (.inr (.inl hi))
  · exact absurd (raise_h .invalidState s) hne

/-- A command that changes VARIANT is an INIT (R25 item 5). -/
theorem exec_variant_changed {i : Instr} {s t : State} (h : exec i s = .next t)
    (hne : t.variant ≠ s.variant) : i = .initSha0 ∨ i = .initSha1 := by
  obtain ⟨hi, -⟩ | ⟨hi, -⟩ | ⟨data, u, -, -, hu, rfl⟩ | ⟨-, -, rfl⟩ | ⟨cnt, -, -, -, rfl⟩ |
    ⟨-, -, u, hu, rfl⟩ | ⟨-, -, -, rfl⟩ := exec_cases i s t h
  · exact .inl hi
  · exact .inr hi
  · rw [respond_variant] at hne
    obtain ⟨-, rfl⟩ | ⟨-, A⟩ := absorbBytes_cases data s u hu
    · exact absurd rfl hne
    · exact absurd A.variant hne
  · exact absurd (respond_variant .ok [] s) hne
  · exact absurd (raise_variant .invalidArgument s) hne
  · obtain ⟨-, _, _, _, P⟩ := finalize_cases s u hu
    exact absurd ((respond_variant .ok _ u).trans P.variant) hne
  · exact absurd (raise_variant .invalidState s) hne

/-- Settles O42: the registers by the two lemmas before, the streams by the one response. -/
theorem onlyInitAndCompressChangeRegisters : Obligations.OnlyInitAndCompressChangeRegisters := by
  intro i s t h
  obtain ⟨code, out, hresp, hcmd, hen, htrace, -⟩ := exec_responded h
  exact ⟨exec_h_changed h, exec_variant_changed h, hcmd, hen, ⟨_, hresp.symm⟩, htrace⟩

end Sys2Proof.Machine

/-! PROOFS. ABSORB and ABSORB.NULL in phase Accepting (41_absorb.md R70, R71), and the pseudo-instructions
that stand for ABSORBs (30_encoding.md R59). -/

namespace Sys2Proof.Machine

/-- Settles O12: the counters of `Absorbed`, and the response after it. -/
theorem absorbCountsBytesAndFlushes : Obligations.AbsorbCountsBytesAndFlushes := by
  intro s data hp hl
  obtain ⟨u, hexec, A⟩ := execAbsorb_accepting data s hp hl
  exact ⟨_, hexec, by rw [respond_len, A.len], by rw [respond_totbits, A.totbits],
    by rw [respond_blkcnt, A.blkcnt], fun hlt => by rw [respond_h, A.h_eq hlt],
    by rw [respond_phase, A.phase, hp], by rw [respond_variant, A.variant],
    by rw [respond_freeCtr, A.freeCtr], A.responded .ok []⟩

/-- Settles O13: the registers and the held bytes of `Absorbed`. -/
theorem absorbCompressesWholeBlocksInOrder : Obligations.AbsorbCompressesWholeBlocksInOrder := by
  intro s data hp hl
  obtain ⟨u, hexec, A⟩ := execAbsorb_accepting data s hp hl
  refine ⟨_, hexec, (respond_h .ok [] u).trans A.h, ?_⟩
  rw [partialBlock, respond_buf, respond_len, A.len, A.held, partialBlock]

/-- Settles O14: the memory effect and the frame of `Absorbed`. -/
theorem absorbStoresOnlyAtTheWritePointer : Obligations.AbsorbStoresOnlyAtTheWritePointer := by
  intro s data hp hl
  obtain ⟨u, hexec, A⟩ := execAbsorb_accepting data s hp hl
  exact ⟨_, hexec, by rw [respond_buf]; exact A.stored, by rw [respond_buf]; exact A.kept⟩

/-- Settles O19: ABSORB.NULL is one response, OK or InvalidArgument. -/
theorem absorbNullIsNoOpOrInvalidArgument : Obligations.AbsorbNullIsNoOpOrInvalidArgument := by
  intro s cnt hp
  by_cases hc : cnt = 0
  · subst hc
    exact ⟨_, exec_absorbNull_zero hp, sameEngine_respond .ok [] s, respond_freeCtr .ok [] s,
      fun _ => responded_respond .ok [] s, fun hne => absurd rfl hne⟩
  · exact ⟨_, exec_absorbNull_invalidArgument hp hc, sameEngine_raise .invalidArgument s,
      raise_freeCtr .invalidArgument s, fun h0 => absurd h0 hc,
      fun _ => responded_raise .invalidArgument s⟩

/-- Settles O21: an empty payload leaves the state, so only the response is written. -/
theorem nopHasNoEffect : Obligations.NopHasNoEffect := fun s hp =>
  ⟨_, exec_absorb_ok (data := []) hp rfl, sameEngine_respond .ok [] s, respond_freeCtr .ok [] s,
    responded_respond .ok [] s⟩

/-- The long ABSORB is one ABSORB for each chunk of its payload, none longer than one command takes
(R59). -/
theorem absorbChunks_eq_map (k : Nat) : ∀ data : List Byte, data.length ≤ (k + 1) * maxPayload →
    ∃ chunks : List (List Byte), absorbChunks k data = chunks.map Instr.absorb ∧
      chunks.flatten = data ∧ ∀ c ∈ chunks, c.length ≤ maxPayload := by
  induction k with
  | zero =>
    intro data hlen
    exact ⟨[data], rfl, List.flatten_singleton, by simpa using hlen⟩
  | succ k ih =>
    intro data hlen
    rw [absorbChunks]
    split
    next hshort => exact ⟨[data], rfl, List.flatten_singleton, by simpa using hshort⟩
    next hlong =>
      have hrest : (data.drop maxPayload).length ≤ (k + 1) * maxPayload := by
        rw [List.length_drop, Nat.sub_le_iff_le_add, ← Nat.succ_mul]
        exact hlen
      obtain ⟨chunks, hmap, hflat, hall⟩ := ih (data.drop maxPayload) hrest
      refine ⟨data.take maxPayload :: chunks, ?_, ?_, ?_⟩
      · rw [hmap, List.map_cons]
      · rw [List.flatten_cons, hflat, List.take_append_drop]
      · exact List.forall_mem_cons.mpr ⟨List.length_take_le _ _, hall⟩

theorem absorbLong_eq_map (data : List Byte) :
    ∃ chunks : List (List Byte), absorbLong data = chunks.map Instr.absorb ∧
      chunks.flatten = data ∧ ∀ c ∈ chunks, c.length ≤ maxPayload :=
  absorbChunks_eq_map _ data (Nat.mul_comm _ _ ▸ (Nat.lt_mul_div_succ _ (by decide)).le)

/-- A payload that one command takes fits CNT (R48). -/
theorem wf_absorb_of_le_maxPayload {data : List Byte} (h : data.length ≤ maxPayload) :
    (Instr.absorb data).wf = true :=
  wf_absorb_iff.mpr (Nat.lt_of_le_pred (by decide) h)

/-- Settles O17: the chunks are a cut of the payload, so they leave what one ABSORB leaves. -/
theorem longAbsorbIsOneAbsorb : Obligations.LongAbsorbIsOneAbsorb := by
  intro s data hp hl
  obtain ⟨chunks, hmap, hflat, hall⟩ := absorbLong_eq_map data
  obtain ⟨t, u, ht, hu, hsame, -⟩ := anyCutOfThePayloadIsTheSame s chunks hp hl
  rw [hmap]
  refine ⟨List.forall_mem_map.mpr fun c hc => wf_absorb_of_le_maxPayload (hall c hc),
    t, u, ht, hflat ▸ hu, hsame⟩

end Sys2Proof.Machine

/-! PROOFS. FINAL in the two rows of R101, and the digest of the message absorbed (43_finalize.md,
44_digest.md R107). -/

namespace Sys2Proof.Machine

/-- What FINAL in phase Accepting answers, from the padding it runs (R93, R101). -/
theorem Padded.exec_final {n : Nat} {h : Regs} {block : List Byte} {s t : State}
    (hp : s.phase = .accepting) (ht : finalize s = .ok t) (P : Padded n h block s t) :
    ∃ u, exec .final s = .next u ∧ u.h = h ∧ Buf.readBytes u.buf 0 64 = block ∧
      (∀ a, 64 ≤ a → Buf.read u.buf a = Buf.read s.buf a) ∧ u.totbits = messageBits s ∧
      u.blkcnt = s.blkcnt + BitVec.ofNat Config.blkcntWidth n ∧ u.phase = .finalized ∧
      u.variant = s.variant ∧ u.len.toNat ≤ 64 ∧ Responded 0x00 (serialize u.h) s u := by
  refine ⟨_, execFinal_ok hp ht, ?_⟩
  simp only [respond_h, respond_buf, respond_totbits, respond_blkcnt, respond_phase, respond_variant,
    respond_len]
  exact ⟨P.h, P.held, P.beyond, P.totbits, P.blkcnt, P.phase, P.variant, P.len_le, P.responded .ok _⟩

/-- Settles O22: the padding of the row `L <= 55`. -/
theorem finalWithOneBlock : Obligations.FinalWithOneBlock := by
  intro s hp hl
  obtain ⟨t, ht, P⟩ := finalize_one_padded s (by omega)
  exact P.exec_final hp ht

/-- Settles O23: the padding of the row `L >= 56`. -/
theorem finalWithTwoBlocks : Obligations.FinalWithTwoBlocks := by
  intro s hp h56 hl
  obtain ⟨t, ht, P⟩ := finalize_two_padded s (by omega) h56
  exact P.exec_final hp ht

/-- Settles O46: `padZeros` fills up the last block, and the number of blocks is `tailCount`'s. -/
theorem paddedMessageIsWholeBlocks : Obligations.PaddedMessageIsWholeBlocks := by
  refine fun msg => ⟨?_, length_padded_div msg⟩
  simp only [padded, padZeros, List.length_append, List.length_cons, List.length_replicate,
    length_bytesBe64]
  omega

/-- Settles O47: each command that absorbs appends its payload, and ABSORB.NULL has none. -/
theorem engineStandsForTheMessage : Obligations.EngineStandsForTheMessage := by
  refine ⟨fun s => ⟨⟨_, exec_initSha0 s, represents_init .sha0 s⟩,
    ⟨_, exec_initSha1 s, represents_init .sha1 s⟩⟩, fun v msg s hs => ⟨fun data => ?_, fun cnt => ?_⟩⟩
  · obtain ⟨t, -, ht, hmsg, -⟩ := hs.exec_absorbing (i := .absorb data) ⟨nofun, nofun, nofun⟩
    exact ⟨t, ht, hmsg⟩
  · obtain ⟨t, -, ht, hmsg, -⟩ := hs.exec_absorbing (i := .absorbNull cnt) ⟨nofun, nofun, nofun⟩
    rw [encodePayload, List.append_nil] at hmsg
    exact ⟨t, ht, hmsg⟩

/-- Settles O48. -/
theorem finalDeliversTheDigestOfTheMessage : Obligations.FinalDeliversTheDigestOfTheMessage :=
  fun _ _ _ hs => hs.exec_final

end Sys2Proof.Machine

/-! PROOFS. Stale bytes of BUF, those from LEN up (10_state.md R18, R25 item 3), and the old computation
an INIT leaves there (40_construct.md R65). -/

namespace Sys2Proof.Machine

/-- Settles O11: `construct` and the response leave BUF. -/
theorem initLeavesTheBuffer : Obligations.InitLeavesTheBuffer := by
  rintro s t (h | h) a
  · rw [exec_initSha0] at h
    cases h
    rw [respond_buf, construct_buf]
  · rw [exec_initSha1] at h
    cases h
    rw [respond_buf, construct_buf]

/-- The state with another BUF. -/
def withBuf (m : List Host.Cell) (s : State) : State := { s with buf := m }

theorem respond_withBuf (st : Status) (out : List Byte) (m : List Host.Cell) (s : State) :
    respond st out (withBuf m s) = withBuf m (respond st out s) := by
  unfold respond emitTrace withBuf
  split <;> rfl

/-- States that agree in every field but BUF. -/
theorem eq_withBuf_iff (s t : State) : t = withBuf t.buf s ↔
    t.phase = s.phase ∧ t.variant = s.variant ∧ t.h = s.h ∧ t.totbits = s.totbits ∧ t.len = s.len ∧
      t.blkcnt = s.blkcnt ∧ t.cmd = s.cmd ∧ t.resp = s.resp ∧ t.traceEn = s.traceEn ∧
      t.trace = s.trace ∧ t.traceCtr = s.traceCtr ∧ t.freeCtr = s.freeCtr := by
  cases s
  cases t
  simp only [withBuf, State.mk.injEq, true_and]

theorem SameButStale.exists_withBuf {s t : State} (h : SameButStale s t) :
    ∃ m, t = withBuf m s := ⟨_, h.left⟩

/-- A response to either state leaves them alike but for stale bytes. -/
theorem SameButStale.after_respond {s t : State} (h : SameButStale s t) (st : Status)
    (out : List Byte) : SameButStale (respond st out s) (respond st out t) := by
  obtain ⟨hbuf, hread⟩ := h
  have hresp : respond st out t = withBuf t.buf (respond st out s) := by
    rw [← respond_withBuf]
    exact congrArg (respond st out) hbuf
  refine ⟨?_, fun j hj => ?_⟩
  · rw [respond_buf]
    exact hresp
  · rw [respond_len] at hj
    rw [respond_buf, respond_buf]
    exact hread j hj

/-- After an INIT every byte of BUF is stale. -/
theorem sameButStale_construct (v : Variant) {s t : State} (hcmd : s.cmd = t.cmd)
    (hresp : s.resp = t.resp) (hen : s.traceEn = t.traceEn) (htrace : s.trace = t.trace)
    (htctr : s.traceCtr = t.traceCtr) (hfctr : s.freeCtr = t.freeCtr) :
    SameButStale (construct v s) (construct v t) := by
  refine ⟨?_, fun j hj => absurd hj (by simp)⟩
  simp only [construct, hcmd, hresp, hen, htrace, htctr, hfctr]

/-- Settles O43: what `construct` does not write the two states have in common, but for BUF. -/
theorem initForgetsTheOldComputation : Obligations.InitForgetsTheOldComputation := by
  intro s s' hcmd hresp hen htrace htctr hfctr
  have hinit (v : Variant) :=
    (sameButStale_construct v hcmd hresp hen htrace htctr hfctr).after_respond .ok []
  exact ⟨hinit .sha0, hinit .sha1⟩

/-- The bytes held are none of the stale ones. -/
theorem SameButStale.readBytes_eq {s t : State} (h : SameButStale s t) :
    Buf.readBytes s.buf 0 s.len.toNat = Buf.readBytes t.buf 0 s.len.toNat :=
  Buf.readBytes_congr h.right

/-- Reads in a run of bytes that two buffers have in common. -/
theorem Buf.read_eq_of_readBytes_eq {m m' : List Host.Cell} {n : Nat}
    (h : Buf.readBytes m 0 n = Buf.readBytes m' 0 n) {j : Nat} (hj : j < n) :
    Buf.read m j = Buf.read m' j := by
  have hget := congrArg (fun bytes => List.getD bytes j 0) h
  simpa only [Buf.getD_readBytes _ _ _ _ hj, Nat.zero_add] using hget

/-- Absorbing the same payload leaves states alike but for stale bytes. -/
theorem SameButStale.after_absorbed {data : List Byte} {s s' t t' : State} (h : SameButStale s s')
    (A : Absorbed data s t) (A' : Absorbed data s' t') : SameButStale t t' := by
  have hheld := h.readBytes_eq
  obtain ⟨m, rfl⟩ := h.exists_withBuf
  have hlen : t'.len = t.len := BitVec.eq_of_toNat_eq (A'.len.trans A.len.symm)
  have hh : t'.h = t.h := by
    rw [A'.h, A.h]
    show hashBlocks s.variant _ (Buf.readBytes m 0 s.len.toNat ++ data) s.h = _
    rw [hheld]
    rfl
  refine ⟨?_, fun j hj => Buf.read_eq_of_readBytes_eq ?_ (A.len ▸ hj)⟩
  · exact (eq_withBuf_iff t t').mpr ⟨A'.phase.trans A.phase.symm, A'.variant.trans A.variant.symm, hh,
      A'.totbits.trans A.totbits.symm, hlen, A'.blkcnt.trans A.blkcnt.symm,
      A'.cmd.trans A.cmd.symm, A'.resp.trans A.resp.symm, A'.traceEn.trans A.traceEn.symm,
      A'.trace.trans A.trace.symm, A'.traceCtr.trans A.traceCtr.symm,
      A'.freeCtr.trans A.freeCtr.symm⟩
  · refine A.held.trans (Eq.trans ?_ A'.held.symm)
    show _ = (Buf.readBytes m 0 s.len.toNat ++ data).drop _
    rw [hheld]
    rfl

/-- The same padding leaves states alike: all of BUF is the last block. -/
theorem SameButStale.after_padded {n : Nat} {h : Regs} {block : List Byte} {s s' t t' : State}
    (hs : SameButStale s s') (P : Padded n h block s t) (P' : Padded n h block s' t') :
    SameButStale t t' := by
  obtain ⟨m, rfl⟩ := hs.exists_withBuf
  refine ⟨?_, fun j hj => Buf.read_eq_of_readBytes_eq (P.held.trans P'.held.symm)
    (Nat.lt_of_lt_of_le hj P.len_le)⟩
  exact (eq_withBuf_iff t t').mpr ⟨P'.phase.trans P.phase.symm, P'.variant.trans P.variant.symm,
    P'.h.trans P.h.symm, P'.totbits.trans P.totbits.symm, P'.len.trans P.len.symm,
    P'.blkcnt.trans P.blkcnt.symm, P'.cmd.trans P.cmd.symm, P'.resp.trans P.resp.symm,
    P'.traceEn.trans P.traceEn.symm, P'.trace.trans P.trace.symm, P'.traceCtr.trans P.traceCtr.symm,
    P'.freeCtr.trans P.freeCtr.symm⟩

/-- What an operation gives on two states: states alike but for stale bytes, or the same stop. -/
def AlikeResults : Except Fault State → Except Fault State → Prop
  | .ok t, .ok t' => SameButStale t t'
  | .error f, .error f' => f = f'
  | _, _ => False

/-- ABSORB and FINAL answer alike what their operation gives alike. -/
theorem AlikeResults.completion {r r' : Except Fault State} (h : AlikeResults r r')
    {out : State → List Byte} (hout : ∀ {t t'}, SameButStale t t' → out t = out t') :
    Related SameButStale (completion out r) (completion out r') := by
  cases r with
  | ok t =>
    cases r' with
    | ok t' =>
      show SameButStale _ (respond .ok (out t') t')
      rw [← hout h]
      exact SameButStale.after_respond h .ok (out t)
    | error f' => exact h.elim
  | error f =>
    cases r' with
    | ok t' => exact h.elim
    | error f' => exact h

/-- Absorbing a payload does not look at stale bytes, whatever LEN is. -/
theorem SameButStale.absorbBytes {s s' : State} (h : SameButStale s s') (data : List Byte) :
    AlikeResults (absorbBytes data s) (absorbBytes data s') := by
  have hlen : s'.len = s.len := by rw [h.left]
  obtain hl | hl := Nat.lt_or_ge s.len.toNat 64
  · obtain ⟨t, ht, A⟩ := absorbBytes_ok data s hl
    obtain ⟨t', ht', A'⟩ := absorbBytes_ok data s' (hlen ▸ hl)
    rw [ht, ht']
    exact h.after_absorbed A A'
  · cases data with
    | nil => exact h
    | cons x xs =>
      rw [Machine.absorbBytes, Machine.absorbBytes, absorbByte_fault x s hl,
        absorbByte_fault x s' (hlen ▸ hl), hlen]
      exact rfl

/-- The padding sequence does not look at stale bytes, whatever LEN is. -/
theorem SameButStale.finalize {s s' : State} (h : SameButStale s s') :
    AlikeResults (finalize s) (finalize s') := by
  have hheld := h.readBytes_eq
  obtain ⟨m, rfl⟩ := h.exists_withBuf
  have hpart : partialBlock (withBuf m s) = partialBlock s := hheld.symm
  obtain hl | ⟨h56, hl⟩ | hl : s.len.toNat < 56 ∨ (56 ≤ s.len.toNat ∧ s.len.toNat < 64) ∨
      64 ≤ s.len.toNat := by omega
  · obtain ⟨t, ht, P⟩ := finalize_one_padded s hl
    obtain ⟨t', ht', P'⟩ := finalize_one_padded (withBuf m s) hl
    have hblock : oneBlock (withBuf m s) = oneBlock s := by
      rw [oneBlock, hpart]
      rfl
    rw [hblock] at P'
    rw [ht, ht']
    exact h.after_padded P P'
  · obtain ⟨t, ht, P⟩ := finalize_two_padded s hl h56
    obtain ⟨t', ht', P'⟩ := finalize_two_padded (withBuf m s) hl h56
    have hblock : firstBlock (withBuf m s) = firstBlock s := by
      rw [firstBlock, hpart]
      rfl
    rw [hblock] at P'
    rw [ht, ht']
    exact h.after_padded P P'
  · rw [finalize_fault s hl, finalize_fault (withBuf m s) hl]
    exact rfl

/-- No command looks at stale bytes (R25 item 3). -/
theorem exec_sameButStale (i : Instr) {s s' : State} (h : SameButStale s s') :
    Related SameButStale (exec i s) (exec i s') := by
  have hphase : s'.phase = s.phase := by rw [h.left]
  have hinit (v : Variant) : SameButStale (respond .ok [] (construct v s))
      (respond .ok [] (construct v s')) := by
    refine (sameButStale_construct v ?_ ?_ ?_ ?_ ?_ ?_).after_respond .ok [] <;> rw [h.left]
  have hinvalid (hp : s.phase ≠ .accepting) (h0 : i ≠ .initSha0) (h1 : i ≠ .initSha1) :
      Related SameButStale (exec i s) (exec i s') := by
    rw [exec_invalidState hp h0 h1, exec_invalidState (hphase ▸ hp) h0 h1]
    exact h.after_respond .invalidState []
  cases i with
  | initSha0 => exact hinit .sha0
  | initSha1 => exact hinit .sha1
  | absorb data =>
    by_cases hp : s.phase = .accepting
    · rw [exec_absorb_eq_completion data hp, exec_absorb_eq_completion data (hphase.trans hp)]
      exact (h.absorbBytes data).completion fun _ => rfl
    · exact hinvalid hp nofun nofun
  | absorbNull cnt =>
    by_cases hp : s.phase = .accepting
    · by_cases hc : cnt = 0
      · subst hc
        rw [exec_absorbNull_zero hp, exec_absorbNull_zero (hphase.trans hp)]
        exact h.after_respond .ok []
      · rw [exec_absorbNull_invalidArgument hp hc,
          exec_absorbNull_invalidArgument (hphase.trans hp) hc]
        exact h.after_respond .invalidArgument []
    · exact hinvalid hp nofun nofun
  | final =>
    by_cases hp : s.phase = .accepting
    · rw [exec_final_eq_completion hp, exec_final_eq_completion (hphase.trans hp)]
      exact h.finalize.completion fun ht => by rw [ht.left]
    · exact hinvalid hp nofun nofun

/-- What is left of the stream is no matter of BUF. -/
theorem SameButStale.consume {s s' : State} (h : SameButStale s s') (rest : List Byte) :
    SameButStale (consume rest s) (consume rest s') := by
  obtain ⟨m, rfl⟩ := h.exists_withBuf
  exact ⟨rfl, h.right⟩

/-- Settles O44: both states decode the same command, and no command looks at stale bytes. -/
theorem staleBytesInfluenceNothing : Obligations.StaleBytesInfluenceNothing := by
  intro s s' h
  exact step_related (by rw [h.left]) (fun i rest => exec_sameButStale i (h.consume rest))
    fun rest => (h.consume rest).after_respond .illegalCommand []

end Sys2Proof.Machine

/-! PROOFS. Primitives of the compression: the rotation in numbers (00_scope.md R10), the round functions
bit by bit (42_compress.md R86 to R88), blocks of constant words (R92) and the length field (R98). -/

namespace Sys2Proof.Machine

/-- The two parts of a rotation have no bit in common, so their sum does not wrap. -/
theorem rotation_parts_lt (x n : Nat) (hx : x < 2 ^ 32) (hn : n < 32) :
    x * 2 ^ n % 2 ^ 32 + x / 2 ^ (32 - n) < 2 ^ 32 := by
  have hpow : (2 : Nat) ^ 32 = 2 ^ (32 - n) * 2 ^ n := by
    rw [← Nat.pow_add, Nat.sub_add_cancel hn.le]
  have hlow : x / 2 ^ (32 - n) < 2 ^ n := Nat.div_lt_of_lt_mul (hpow ▸ hx)
  have hhigh : x % 2 ^ (32 - n) < 2 ^ (32 - n) := Nat.mod_lt _ (Nat.two_pow_pos _)
  calc x * 2 ^ n % 2 ^ 32 + x / 2 ^ (32 - n)
      = x % 2 ^ (32 - n) * 2 ^ n + x / 2 ^ (32 - n) := by rw [hpow, Nat.mul_mod_mul_right]
    _ < (x % 2 ^ (32 - n) + 1) * 2 ^ n := by rw [Nat.succ_mul]; exact Nat.add_lt_add_left hlow _
    _ ≤ 2 ^ 32 := hpow ▸ Nat.mul_le_mul_right _ hhigh

/-- Settles O28: the shifts are the product and the quotient, and the addition does not wrap. -/
theorem rotationFollowsTheFormula : Obligations.RotationFollowsTheFormula := by
  intro x n hn
  rw [rotl32, apply_ite BitVec.toNat, BitVec.toNat_add, BitVec.toNat_shiftLeft,
    BitVec.toNat_ushiftRight, Nat.shiftLeft_eq, Nat.shiftRight_eq_div_pow,
    Nat.mod_eq_of_lt (rotation_parts_lt x.toNat n x.isLt hn)]

/-- Settles O29: each function as a formula, then by the values of the three bits. -/
theorem roundFunctionsBitByBit : Obligations.RoundFunctionsBitByBit := by
  intro b c d p hp
  simp only [choice_eq, parity_eq, majority_eq, BitVec.getLsbD_or, BitVec.getLsbD_and,
    BitVec.getLsbD_xor, BitVec.getLsbD_not, hp, decide_true, Bool.true_and]
  generalize b.getLsbD p = x
  generalize c.getLsbD p = y
  generalize d.getLsbD p = z
  revert x y z
  decide

/-- A word of one repeated bit. -/
def ConstantWord (x : Word) : Prop := x = 0 ∨ x = 0xFFFFFFFF

theorem ConstantWord.xor {x y : Word} (hx : ConstantWord x) (hy : ConstantWord y) :
    ConstantWord (xor32 x y) := by
  unfold ConstantWord
  rcases hx with rfl | rfl <;> rcases hy with rfl | rfl <;> decide

/-- The next schedule word of constant words is their sum without rotation, and is constant. -/
theorem expandWord_of_constant {r : Nat} (hr : r < 32) {back : List Word}
    (hback : ∀ k, ConstantWord (back.getD k 0)) :
    expandWord r back = expandWord 0 back ∧ ConstantWord (expandWord 0 back) := by
  have hsum : ConstantWord (xor32 (xor32 (xor32 (back.getD 2 0) (back.getD 7 0)) (back.getD 13 0))
      (back.getD 15 0)) := (((hback 2).xor (hback 7)).xor (hback 13)).xor (hback 15)
  have hrotation {n : Nat} (hn : n < 32) := rotl32_zero_or_ones _ n hn hsum
  exact ⟨(hrotation hr).trans (hrotation (by decide)).symm, by
    rw [expandWord, hrotation (by decide)]; exact hsum⟩

/-- The schedule of constant words does not depend on the rotation amount. -/
theorem expandFrom_of_constant {r : Nat} (hr : r < 32) (n : Nat) : ∀ {back : List Word},
    (∀ k, ConstantWord (back.getD k 0)) → expandFrom r n back = expandFrom 0 n back := by
  induction n with
  | zero => exact fun _ => rfl
  | succ n ih =>
    intro back hback
    obtain ⟨hword, hconst⟩ := expandWord_of_constant hr hback
    rw [expandFrom, expandFrom, hword]
    refine ih fun k => ?_
    cases k with
    | zero => exact hconst
    | succ k => exact hback k

/-- What stands at an index of a list of constant words, or beside it, is constant. -/
theorem constantWord_getD_of_mem {xs : List Word} (h : ∀ x ∈ xs, ConstantWord x) (k : Nat) :
    ConstantWord (xs.getD k 0) := by
  obtain hk | hk := Nat.lt_or_ge k xs.length
  · rw [List.getD_eq_getElem _ _ hk]
    exact h _ (List.getElem_mem hk)
  · rw [List.getD_eq_default _ _ hk]
    exact .inl rfl

/-- Settles O32: the two variants have the same schedule of the block. -/
theorem constantWordBlocksIgnoreTheVariant : Obligations.ConstantWordBlocksIgnoreTheVariant := by
  intro h block hlen hwords
  have hmem : ∀ x ∈ (parse block).reverse, ConstantWord x := by
    intro x hx
    obtain ⟨t, ht, rfl⟩ := List.getElem_of_mem (List.mem_reverse.mp hx)
    have hword := hwords t (length_parse 16 block hlen ▸ ht)
    rwa [List.getD_eq_getElem _ _ ht] at hword
  have hback := constantWord_getD_of_mem hmem
  have hschedule (v : Variant) : schedule v.rotation (parse block) = schedule 0 (parse block) := by
    rw [schedule, expandFrom_of_constant v.rotation_lt 64 hback, schedule]
  rw [compressFn_eq_compressWith, compressFn_eq_compressWith, compressWith, compressWith,
    hschedule, hschedule]

/-- The word of four bytes of a 64-bit value is its bits from the last byte's on. -/
theorem be32_extractLsb' (bits : Word64) (lo : Nat) :
    be32 (bits.extractLsb' (lo + 24) 8) (bits.extractLsb' (lo + 16) 8) (bits.extractLsb' (lo + 8) 8)
      (bits.extractLsb' lo 8) = bits.extractLsb' lo 32 := by
  have hbyte (k : Nat) (hk : k + 8 ≤ 32) :
      (bits.extractLsb' lo 32).extractLsb' k 8 = bits.extractLsb' (lo + k) 8 := by
    apply BitVec.eq_of_getLsbD_eq
    intro i hi
    simp [hi, show k + i < 32 by omega, Nat.add_assoc]
  have hword := be32_of_word (bits.extractLsb' lo 32)
  rwa [hbyte 24 (by decide), hbyte 16 (by decide), hbyte 8 (by decide), hbyte 0 (by decide)] at hword

/-- Settles O33: the two words are made of the eight bytes of the count. -/
theorem lengthFieldIsTheLastTwoWords : Obligations.LengthFieldIsTheLastTwoWords := by
  intro front bits hlen
  have hbyte (k : Nat) : (front ++ bytesBe64 bits).getD (56 + k) 0 = (bytesBe64 bits).getD k 0 := by
    rw [List.getD_append_right _ _ _ _ (by omega), hlen, Nat.add_sub_cancel_left]
  have hfit : (front ++ bytesBe64 bits).length = 64 := by
    rw [List.length_append, hlen, length_bytesBe64]
  refine ⟨?_, ?_⟩
  · rw [getD_parse 14 _ (by omega), hbyte 0, hbyte 1, hbyte 2, hbyte 3]
    exact be32_extractLsb' bits 32
  · rw [getD_parse 15 _ (by omega), hbyte 4, hbyte 5, hbyte 6, hbyte 7]
    exact be32_extractLsb' bits 0

end Sys2Proof.Machine

/-! PROOFS. Outside one engine: several engines (60_exceptions.md R124), and hexadecimal text read back
(44_digest.md R106). -/

namespace Sys2Proof.Machine

/-- Everything a step of engine `k` can answer as a next list: engine `k`'s own step, put in its place. -/
theorem stepEngine_next_iff {k : Nat} {es es' : List State} :
    stepEngine k es = some (.next es') ↔
      ∃ s t, es[k]? = some s ∧ step s = .next t ∧ es' = es.set k t := by
  unfold stepEngine
  cases es[k]? with
  | none => simp
  | some s => cases hs : step s <;> simp [hs, eq_comm]

/-- Settles O50: each engine's step reads and writes its own place in the list. -/
theorem enginesShareNothing : Obligations.EnginesShareNothing := by
  refine ⟨fun k es es' h => ?_, fun j k es es1 es2 hjk hj hk => ?_⟩
  · obtain ⟨s, t, hs, hstep, rfl⟩ := stepEngine_next_iff.mp h
    have hk : k < es.length := (List.getElem?_eq_some_iff.mp hs).1
    exact ⟨List.length_set, fun j hj => List.getElem?_set_ne hj.symm,
      s, t, hs, hstep, List.getElem?_set_self hk⟩
  · obtain ⟨s, t, hs, hstep, rfl⟩ := stepEngine_next_iff.mp hj
    obtain ⟨s', t', hs', hstep', rfl⟩ := stepEngine_next_iff.mp hk
    rw [List.getElem?_set_ne hjk] at hs'
    refine ⟨es.set k t', stepEngine_next_iff.mpr ⟨s', t', hs', hstep', rfl⟩,
      stepEngine_next_iff.mpr ⟨s, t, ?_, hstep, List.set_comm _ _ hjk⟩⟩
    rw [List.getElem?_set_ne hjk.symm, hs]

theorem hexDigit_mem_hexAlphabet (n : BitVec 4) : hexDigit n ∈ hexAlphabet := by
  revert n
  decide

/-- A digit reads back as its value: the alphabet repeats no character. -/
theorem hexVal_hexDigit (n : BitVec 4) : hexVal (hexDigit n) = some n := by
  revert n
  decide

/-- A byte is its two halves. -/
theorem nibbles_append (x : Byte) : x.extractLsb' 4 4 ++ x.extractLsb' 0 4 = x := by
  apply BitVec.eq_of_getLsbD_eq
  intro i hi
  simp only [BitVec.getLsbD_append, BitVec.getLsbD_extractLsb']
  by_cases h4 : i < 4
  · simp [h4]
  · simp [h4, show i - 4 < 4 by omega, show 4 + (i - 4) = i by omega]

theorem mem_hexAlphabet_of_mem_toHexChars {bytes : List Byte} {c : Char} (h : c ∈ toHexChars bytes) :
    c ∈ hexAlphabet := by
  rw [toHexChars_eq_flatMap, List.mem_flatMap] at h
  obtain ⟨x, -, hx⟩ := h
  obtain rfl | hx := List.mem_cons.mp hx
  · exact hexDigit_mem_hexAlphabet _
  · obtain rfl := List.mem_singleton.mp hx
    exact hexDigit_mem_hexAlphabet _

theorem fromHexChars_toHexChars (bytes : List Byte) : fromHexChars (toHexChars bytes) = some bytes := by
  induction bytes with
  | nil => rfl
  | cons x xs ih => simp only [toHexChars, fromHexChars, hexVal_hexDigit, ih, nibbles_append]

/-- Settles O52: digit by digit, and by the length of the text. -/
theorem hexReadsBack : Obligations.HexReadsBack := by
  refine ⟨fun bytes => ⟨fun c => mem_hexAlphabet_of_mem_toHexChars, fromHexChars_toHexChars bytes,
    fun hlen => ?_⟩, fun cs hcs => if_neg hcs⟩
  rw [readDigest, if_pos (by rw [length_toHexChars, hlen]), fromHexChars_toHexChars]

end Sys2Proof.Machine
